-- ==== Sys2Proof/Word.lean ====
section
/-! DEFINITION. The word: the one size of this hardware (00_scope.md R6, 10_state.md R10). -/

namespace Sys2Proof

/-- A word: the contents of a storage cell, an instruction word, and an address alike (R6, R10).
Cells are unsigned, so a word is read as a number with `toNat` (R115). -/
abbrev Word := BitVec 16

/-- A 6-bit field of an instruction word: an operand code or an extended opcode (R51, R53). -/
abbrev Code := BitVec 6

end Sys2Proof
end

