-- ==== Sys2Proof/Syntax.lean ====
section
/-! DEFINITION. The instructions as syntax: one constructor per row of spec/opcode_table.json.

An instruction is what its FIRST word says (30_encoding.md R50, R52). The extra words are not part of
it: they lie in memory after the first word, and the operand resolver reads them there while the
instruction executes (40_operand_resolver.md R70), so that code 0x1F can name the word itself (R81). -/

namespace Sys2Proof

/-- The eight general registers, index 0 to 7 in this order (10_state.md R12). -/
inductive Reg where
  | a | b | c | x | y | z | i | j
  deriving DecidableEq, Repr

/-- What a 6-bit operand code selects (30_encoding.md R55): exactly 64 operands. -/
inductive Operand where
  /-- 0x00 to 0x07: the register itself (R71). -/
  | reg (r : Reg)
  /-- 0x08 to 0x0F: memory at the register's value (R72). -/
  | regInd (r : Reg)
  /-- 0x10 to 0x17: memory at the register's value plus the extra word (R73). -/
  | regIdx (r : Reg)
  /-- 0x18: memory at SP, then SP + 1 (R74). -/
  | pop
  /-- 0x19: memory at SP (R75). -/
  | peek
  /-- 0x1A: SP - 1, then memory at SP (R76). -/
  | push
  /-- 0x1B: the register SP (R77). -/
  | sp
  /-- 0x1C: the register PC (R78). -/
  | pc
  /-- 0x1D: the register O (R79). -/
  | o
  /-- 0x1E: memory at the extra word (R80). -/
  | absolute
  /-- 0x1F: the memory word that holds the extra word itself (R81). -/
  | nextWord
  /-- 0x20 to 0x3F: the constant `code - 0x20` (R82). -/
  | lit (v : BitVec 5)
  deriving DecidableEq, Repr

/-- The instructions. In a basic one `a` is the destination and `b` the source operand (R51). -/
inductive Instr where
  /-- SET (R105). -/
  | set (a b : Operand)
  /-- ADD (R110). -/
  | add (a b : Operand)
  /-- SUB (R111). -/
  | sub (a b : Operand)
  /-- MUL (R112). -/
  | mul (a b : Operand)
  /-- DIV (R113). -/
  | div (a b : Operand)
  /-- MOD (R114). -/
  | mod (a b : Operand)
  /-- SHL (R120). -/
  | shl (a b : Operand)
  /-- SHR (R121). -/
  | shr (a b : Operand)
  /-- AND (R106). -/
  | and (a b : Operand)
  /-- OR (R107). -/
  | or (a b : Operand)
  /-- XOR (R108). -/
  | xor (a b : Operand)
  /-- IFE (R125). -/
  | ife (a b : Operand)
  /-- IFN (R126). -/
  | ifn (a b : Operand)
  /-- IFG (R127). -/
  | ifg (a b : Operand)
  /-- IFB (R128). -/
  | ifb (a b : Operand)
  /-- HLT, extended opcode 0; `ignored` is bits 15:10, never resolved (R140). -/
  | hlt (ignored : Code)
  /-- JSR, extended opcode 1 (R141). -/
  | jsr (a : Operand)
  /-- Extended opcodes 0x02 to 0x03 with their operand field (R142). -/
  | illegalExt02To03 (xop field : Code)
  /-- Extended opcodes 0x04 to 0x07 with their operand field (R142). -/
  | illegalExt04To07 (xop field : Code)
  /-- Extended opcodes 0x08 to 0x0F with their operand field (R142). -/
  | illegalExt08To0F (xop field : Code)
  /-- Extended opcodes 0x10 to 0x1F with their operand field (R142). -/
  | illegalExt10To1F (xop field : Code)
  /-- Extended opcodes 0x20 to 0x3F with their operand field (R142). -/
  | illegalExt20To3F (xop field : Code)
  deriving DecidableEq, Repr

/-- An instruction together with its extra words, in the order they follow the first word in memory:
that of `a`, then that of `b` (R56). -/
structure Assembled where
  /-- What the first word says. -/
  instr : Instr
  /-- The words that follow it. -/
  extra : List Word
  deriving DecidableEq, Repr

end Sys2Proof
end

