-- ==== Sys2Proof/WellFormed.lean ====
section
/-! DEFINITION. Which syntax has an encoding: a check per constructor that can be ill formed. -/

namespace Sys2Proof

/-- `extra(c)` of 30_encoding.md R52: 1 for the operand codes that consume an extra word. -/
def Operand.extra : Operand → Nat
  | .regIdx _ | .absolute | .nextWord => 1
  | .reg _ | .regInd _ | .pop | .peek | .push | .sp | .pc | .o | .lit _ => 0

/-- The number of extra words an instruction is laid out with: R52 for the basic instructions and JSR;
none for HLT (R58) and none for an illegal word, whose operand field is not resolved (R142). -/
def Instr.extraWords : Instr → Nat
  | .set a b | .add a b | .sub a b | .mul a b | .div a b | .mod a b | .shl a b | .shr a b
  | .and a b | .or a b | .xor a b | .ife a b | .ifn a b | .ifg a b | .ifb a b => a.extra + b.extra
  | .jsr a => a.extra
  | .hlt _ | .illegalExt02To03 _ _ | .illegalExt04To07 _ _ | .illegalExt08To0F _ _
  | .illegalExt10To1F _ _ | .illegalExt20To3F _ _ => 0

/-- The length of an instruction in words (R52, R62). -/
def Instr.length (i : Instr) : Nat := 1 + i.extraWords

/-- An instruction is well formed when its row of the opcode table encodes it. Every operand is
encodable, a literal destination included (it encodes an instruction that faults, R60); an illegal
row covers its own range of extended opcodes only. -/
def Instr.wellFormed : Instr → Bool
  | .illegalExt02To03 xop _ => 0x02 ≤ xop && xop ≤ 0x03
  | .illegalExt04To07 xop _ => 0x04 ≤ xop && xop ≤ 0x07
  | .illegalExt08To0F xop _ => 0x08 ≤ xop && xop ≤ 0x0F
  | .illegalExt10To1F xop _ => 0x10 ≤ xop && xop ≤ 0x1F
  | .illegalExt20To3F xop _ => 0x20 ≤ xop && xop ≤ 0x3F
  | .set _ _ | .add _ _ | .sub _ _ | .mul _ _ | .div _ _ | .mod _ _ | .shl _ _ | .shr _ _
  | .and _ _ | .or _ _ | .xor _ _ | .ife _ _ | .ifn _ _ | .ifg _ _ | .ifb _ _
  | .hlt _ | .jsr _ => true

/-- An assembled instruction is well formed when its instruction is and it carries exactly the extra
words that instruction consumes (R52, R62). -/
def Assembled.wellFormed (x : Assembled) : Bool :=
  x.instr.wellFormed && x.extra.length == x.instr.extraWords

end Sys2Proof
end

