-- ==== Sys2Proof/Decode.lean ====
section
/-! DEFINITION. Decoding and encoding of instruction words (30_encoding.md), total on every word.

The numbers of the basic opcodes 0x2 to 0xF and of JSR are the spec's decision D4 (log entry 2). -/

namespace Sys2Proof

/-! ## The fields of a word (R51, R53, R62) -/

/-- `w[3:0]`: the basic opcode, 0 for an extended word (R50, R51). -/
def opField (w : Word) : BitVec 4 := w.extractLsb' 0 4

/-- `w[9:4]`: the destination operand code of a basic word (R51), the extended opcode of an extended
word (R53). -/
def aField (w : Word) : Code := w.extractLsb' 4 6

/-- `w[15:10]`: the source operand code of a basic word (R51), the one operand code of an extended
word (R53). -/
def bField (w : Word) : Code := w.extractLsb' 10 6

/-! ## Operand codes (R12, R55) -/

/-- The general register with an index (R12). -/
def Reg.ofIndex (n : BitVec 3) : Reg :=
  match n.toNat with
  | 0 => .a | 1 => .b | 2 => .c | 3 => .x | 4 => .y | 5 => .z | 6 => .i | _ => .j

/-- The index of a general register (R12). -/
def Reg.index : Reg → BitVec 3
  | .a => 0 | .b => 1 | .c => 2 | .x => 3 | .y => 4 | .z => 5 | .i => 6 | .j => 7

/-- The operand a code selects: the table of R55. -/
def Operand.ofCode (c : Code) : Operand :=
  let low := Reg.ofIndex (c.extractLsb' 0 3)
  if c ≤ 0x07 then .reg low
  else if c ≤ 0x0F then .regInd low
  else if c ≤ 0x17 then .regIdx low
  else if c = 0x18 then .pop
  else if c = 0x19 then .peek
  else if c = 0x1A then .push
  else if c = 0x1B then .sp
  else if c = 0x1C then .pc
  else if c = 0x1D then .o
  else if c = 0x1E then .absolute
  else if c = 0x1F then .nextWord
  else .lit (c.extractLsb' 0 5)

/-- The code of an operand: the table of R55 read from right to left. -/
def Operand.code : Operand → Code
  | .reg r => 0x00 + r.index.setWidth 6
  | .regInd r => 0x08 + r.index.setWidth 6
  | .regIdx r => 0x10 + r.index.setWidth 6
  | .pop => 0x18
  | .peek => 0x19
  | .push => 0x1A
  | .sp => 0x1B
  | .pc => 0x1C
  | .o => 0x1D
  | .absolute => 0x1E
  | .nextWord => 0x1F
  | .lit v => 0x20 + v.setWidth 6

/-! ## First words (R50 to R62) -/

/-- The instruction of an extended word with extended opcode `xop` and operand field `field`
(R53, R58, R59). -/
def decodeExtended (xop field : Code) : Instr :=
  if xop = 0x00 then .hlt field
  else if xop = 0x01 then .jsr (Operand.ofCode field)
  else if xop ≤ 0x03 then .illegalExt02To03 xop field
  else if xop ≤ 0x07 then .illegalExt04To07 xop field
  else if xop ≤ 0x0F then .illegalExt08To0F xop field
  else if xop ≤ 0x1F then .illegalExt10To1F xop field
  else .illegalExt20To3F xop field

/-- The instruction that a first word spells. Every word spells exactly one (R54). -/
def decodeWord (w : Word) : Instr :=
  let a := Operand.ofCode (aField w)
  let b := Operand.ofCode (bField w)
  match (opField w).toNat with
  | 0x0 => decodeExtended (aField w) (bField w)
  | 0x1 => .set a b
  | 0x2 => .add a b
  | 0x3 => .sub a b
  | 0x4 => .mul a b
  | 0x5 => .div a b
  | 0x6 => .mod a b
  | 0x7 => .shl a b
  | 0x8 => .shr a b
  | 0x9 => .and a b
  | 0xA => .or a b
  | 0xB => .xor a b
  | 0xC => .ife a b
  | 0xD => .ifn a b
  | 0xE => .ifg a b
  | _ => .ifb a b

/-- A word from its three fields, high to low: `hi * 1024 + mid * 16 + lo` (R51, R53, R62). -/
def wordOfFields (hi mid : Code) (lo : BitVec 4) : Word :=
  BitVec.ofNat 16 (hi.toNat * 1024 + mid.toNat * 16 + lo.toNat)

/-- The first word of a basic instruction: `b_code << 10 | a_code << 4 | op` (R51). -/
def encodeBasic (op : BitVec 4) (a b : Operand) : Word := wordOfFields b.code a.code op

/-- The first word of an extended instruction: `a_code << 10 | xop << 4` (R53). -/
def encodeExtended (xop field : Code) : Word := wordOfFields field xop 0

/-- The first word of an instruction (R57, R58, R62). -/
def encodeWord : Instr → Word
  | .set a b => encodeBasic 0x1 a b
  | .add a b => encodeBasic 0x2 a b
  | .sub a b => encodeBasic 0x3 a b
  | .mul a b => encodeBasic 0x4 a b
  | .div a b => encodeBasic 0x5 a b
  | .mod a b => encodeBasic 0x6 a b
  | .shl a b => encodeBasic 0x7 a b
  | .shr a b => encodeBasic 0x8 a b
  | .and a b => encodeBasic 0x9 a b
  | .or a b => encodeBasic 0xA a b
  | .xor a b => encodeBasic 0xB a b
  | .ife a b => encodeBasic 0xC a b
  | .ifn a b => encodeBasic 0xD a b
  | .ifg a b => encodeBasic 0xE a b
  | .ifb a b => encodeBasic 0xF a b
  | .hlt ignored => encodeExtended 0x00 ignored
  | .jsr a => encodeExtended 0x01 a.code
  | .illegalExt02To03 xop field => encodeExtended xop field
  | .illegalExt04To07 xop field => encodeExtended xop field
  | .illegalExt08To0F xop field => encodeExtended xop field
  | .illegalExt10To1F xop field => encodeExtended xop field
  | .illegalExt20To3F xop field => encodeExtended xop field

/-! ## Whole instructions (R52, R56, R62) -/

/-- Why a list of words is not an instruction. A word never is the reason (R54): the list is short. -/
inductive DecodeReject where
  /-- There is no first word. -/
  | noFirstWord
  /-- The first word asks for more extra words than follow it (R52). -/
  | missingExtraWord
  deriving DecidableEq, Repr

/-- The instruction at the head of a list of words, with its extra words, and the words after it
(R62). -/
def decode : List Word → Except DecodeReject (Assembled × List Word)
  | [] => .error .noFirstWord
  | w :: rest =>
    let i := decodeWord w
    if rest.length < i.extraWords then .error .missingExtraWord
    else .ok (⟨i, rest.take i.extraWords⟩, rest.drop i.extraWords)

/-- The words of an assembled instruction, first word at the lowest address (R56). -/
def encode (x : Assembled) : List Word := encodeWord x.instr :: x.extra

/-! ## The host's numbering of an instruction's bits -/

/-- The words that the low `nbits` bits of `w` make, the first word the least significant, up to the
longest instruction, which has three words (R52). -/
def tableWords (nbits w : Nat) : List Word :=
  let v := w % 2 ^ nbits
  [BitVec.ofNat 16 v, BitVec.ofNat 16 (v >>> 16), BitVec.ofNat 16 (v >>> 32)]

/-- What the decoder reads from the words of `w`. -/
def decodeTableWord (nbits w : Nat) : Option Instr :=
  match decode (tableWords nbits w) with
  | .ok (x, _) => some x.instr
  | .error _ => none

end Sys2Proof
end

