-- ==== Sys2Proof/Config.lean ====
section
/-! DEFINITION. The parameters of 00_scope.md R6, each with the value the spec takes as normative. -/

namespace Sys2Proof

/-- Which value of `a` the O computation of DIV, SHL and SHR uses (R6 `OVF_OPERAND`, 92 D7, 90 C1). -/
inductive OvfOperand where
  /-- The value before the instruction wrote it: the normative value. -/
  | original
  /-- The value after the write: the reconstruction of 93 K2, which the spec marks INFERRED. -/
  | mutated
  deriving DecidableEq, Repr

/-- What an extended opcode 0x02 to 0x3F does (R6 `ILLEGAL_EXT_POLICY`, 92 D6). -/
inductive IllegalExtPolicy where
  /-- Raise `IllegalExtendedOpcode`: the normative value. -/
  | fault
  /-- Go on; the argument says whether the operand field is resolved first, the second argument
  that 93 K3 asks a model of this policy to take. -/
  | ignore (resolveOperand : Bool)
  deriving DecidableEq, Repr

/-- The normative `OVF_OPERAND` (R6, R96, log entry 5). -/
def Config.ovfOperand : OvfOperand := .original

/-- The normative `ILLEGAL_EXT_POLICY` (R6, R142, log entry 6). -/
def Config.illegalExtPolicy : IllegalExtPolicy := .fault

/-- `MAX_IMAGE_WORDS` (R6, R160): the longest image `mount` accepts. -/
def Config.maxImageWords : Nat := 65536

end Sys2Proof
end

