-- ==== Sys2Proof/Machine/State.lean ====
section
/-! DEFINITION. The machine's state as plain data: twelve register cells, 65536 memory words and the
run status, and nothing else (10_state.md, its opening paragraph and R25). -/

namespace Sys2Proof.Machine

/-- The eight general registers A, B, C, X, Y, Z, I, J (R11, R12). -/
structure Regs where
  a : Word
  b : Word
  c : Word
  x : Word
  y : Word
  z : Word
  i : Word
  j : Word
  deriving DecidableEq, Repr

/-- The twelve cells of the register file by name (R11). -/
inductive RegName where
  /-- A general register. -/
  | gp (r : Reg)
  /-- The program counter (R14). -/
  | pc
  /-- The stack pointer (R16). -/
  | sp
  /-- The overflow register (R18). -/
  | o
  /-- The cycle counter, which no operand code names (R22, R23). -/
  | cycle
  deriving DecidableEq, Repr

/-- The kinds of fatal error (R24, R145). -/
inductive FaultKind where
  /-- A basic instruction with a short literal as its destination (R147). -/
  | decodeError
  /-- An extended opcode 0x02 to 0x3F executed (R149). -/
  | illegalExtendedOpcode
  /-- An image too long for memory (R148). -/
  | boundsError
  deriving DecidableEq, Repr

/-- The run status (R24). -/
inductive RunStatus where
  /-- The next step executes an instruction. -/
  | running
  /-- The terminal state HLT enters. -/
  | halted
  /-- The terminal state a fatal error enters. -/
  | faulted (kind : FaultKind)
  deriving DecidableEq, Repr

/-- One word of memory at a word address (R30). The hardware has no bytes (R32), so the unit is the
16-bit word (log entry 1). -/
abbrev MemCell := Nat × Word

/-- The memory words that differ from zero, addresses strictly rising. -/
abbrev Memory := List MemCell

/-- The number of memory words (R6, R30). -/
def memoryWords : Nat := 65536

/-- What an address that is not listed reads as: `mount` leaves zero in every word beyond the image
(R26, R160). -/
def Memory.unlisted : Word := 0

/-- The canonical form from address `lo` on: addresses strictly rising, at least `lo` and inside the
address space, no entry equal to what an unlisted address reads as. -/
def Memory.wfFrom (lo : Nat) : Memory → Bool
  | [] => true
  | (k, v) :: rest =>
    decide (lo ≤ k) && decide (k < memoryWords) && decide (v ≠ Memory.unlisted)
      && Memory.wfFrom (k + 1) rest

/-- The canonical form of a memory. -/
def Memory.wf (m : Memory) : Bool := Memory.wfFrom 0 m

/-- The whole state of the core (R11, R24, R30). -/
structure State where
  /-- The general registers. -/
  regs : Regs
  /-- The address of the next instruction word not yet consumed (R14). -/
  pc : Word
  /-- The address of the top of the stack (R16). -/
  sp : Word
  /-- The overflow register, sixteen bits wide (R18). -/
  o : Word
  /-- The cycle counter (R22). -/
  cycle : Word
  /-- The data memory: code, data, stack and output surface alike (R30, R31). -/
  mem : Memory
  /-- The run status (R24). -/
  status : RunStatus
  deriving DecidableEq, Repr

/-- The state after reset, which is `mount` of an empty image (R26, R160): every cell zero but
SP = 0xFFFF, status Running. -/
def State.reset : State where
  regs := ⟨0, 0, 0, 0, 0, 0, 0, 0⟩
  pc := 0
  sp := 0xFFFF
  o := 0
  cycle := 0
  mem := []
  status := .running

/-- Why the machine can stop without a next state. No step does: a fatal error of a step is a next
state with status Faulted (R146). -/
inductive Fault where
  /-- Raised by `mount` alone, for an image longer than memory (R148): the spec gives that call no
  resulting state (93 K9). Safe: nothing can be proved of a state that does not exist. -/
  | boundsError
  deriving DecidableEq, Repr

/-- Why an instruction could have no meaning. -/
inductive Refusal where
  /-- Answered by an arm of `exec` whose instruction has no meaning yet; no arm does. Safe. -/
  | notModelled (mnemonic : String)
  deriving DecidableEq, Repr

/-- The part of the state an operand can be read from or written to: a cell reference (00 R7, R85). -/
inductive CellRef where
  /-- `RegRef(name)`. -/
  | reg (n : RegName)
  /-- `MemRef(addr)`. -/
  | mem (addr : Word)
  deriving DecidableEq, Repr

/-- What an operand resolves to (00 R7): a cell reference, or a constant that is only read. -/
inductive Ref where
  /-- A cell reference. -/
  | cell (c : CellRef)
  /-- `Lit(v)`, `v` in 0 to 31. -/
  | lit (v : BitVec 5)
  deriving DecidableEq, Repr

/-- What a basic instruction computes from its two values (`f_op` of 41 `ExecBasic`), over unbounded
integers. -/
structure Effect where
  /-- What is written to the destination, if anything. -/
  result : Option Int
  /-- What is written to O; `none` keeps it. -/
  ovf : Option Int
  /-- Whether the next instruction is skipped. -/
  skip : Bool
  deriving DecidableEq, Repr

end Sys2Proof.Machine
end

