-- ==== Sys2Proof/Machine/Ops.lean ====
section
/-! DEFINITION. The named operations over registers, memory and status: the units `register_file`,
`data_memory` and `fetch_decode_unit` (00_scope.md, the table under R5), and raising a fatal error. -/

namespace Sys2Proof.Machine

/-- `trunc16(v)`: the mathematical remainder modulo 65536, also of a negative `v` (R7, R10). -/
def trunc16 (v : Int) : Word := BitVec.ofInt 16 v

/-! ## Memory -/

/-- The word at an address: the listed one, else what an unlisted address reads as. -/
def Memory.read : Memory → Nat → Word
  | [], _ => Memory.unlisted
  | (k, v) :: rest, addr => if k = addr then v else Memory.read rest addr

/-- Put a cell in front, unless it holds what an unlisted address reads as. -/
def Memory.cons (addr : Nat) (v : Word) (m : Memory) : Memory :=
  if v = Memory.unlisted then m else (addr, v) :: m

/-- Replace the word at an address, keeping the canonical form. -/
def Memory.write : Memory → Nat → Word → Memory
  | [], addr, v => Memory.cons addr v []
  | (k, u) :: rest, addr, v =>
    if addr < k then Memory.cons addr v ((k, u) :: rest)
    else if addr = k then Memory.cons addr v rest
    else (k, u) :: Memory.write rest addr v

/-- `MemRead(addr, 1)` (R7, R34): no side effect on any address. -/
def memRead (addr : Word) (s : State) : Word := s.mem.read addr.toNat

/-- `MemWrite(addr, 1, v)` (R7, R34). -/
def memWrite (addr v : Word) (s : State) : State := { s with mem := s.mem.write addr.toNat v }

/-! ## Registers -/

/-- `PC <- v`. -/
def setPc (v : Word) (s : State) : State := { s with pc := v }

/-- `SP <- v`. -/
def setSp (v : Word) (s : State) : State := { s with sp := v }

/-- `O <- v`: the whole register, never merged with the old value (R20). -/
def setO (v : Word) (s : State) : State := { s with o := v }

/-- `CYCLE <- v`. -/
def setCycle (v : Word) (s : State) : State := { s with cycle := v }

/-- Read a general register: `x[i]` (R7, R12). -/
def getReg (r : Reg) (s : State) : Word :=
  match r with
  | .a => s.regs.a | .b => s.regs.b | .c => s.regs.c | .x => s.regs.x
  | .y => s.regs.y | .z => s.regs.z | .i => s.regs.i | .j => s.regs.j

/-- Write a general register: `x[i] <- v` (R7, R12). -/
def setReg (r : Reg) (v : Word) (s : State) : State :=
  match r with
  | .a => { s with regs := { s.regs with a := v } }
  | .b => { s with regs := { s.regs with b := v } }
  | .c => { s with regs := { s.regs with c := v } }
  | .x => { s with regs := { s.regs with x := v } }
  | .y => { s with regs := { s.regs with y := v } }
  | .z => { s with regs := { s.regs with z := v } }
  | .i => { s with regs := { s.regs with i := v } }
  | .j => { s with regs := { s.regs with j := v } }

/-- `register_file.read(name)` (table under R5). -/
def readReg (n : RegName) (s : State) : Word :=
  match n with
  | .gp r => getReg r s
  | .pc => s.pc
  | .sp => s.sp
  | .o => s.o
  | .cycle => s.cycle

/-- `register_file.write(name, v)` (table under R5). -/
def writeReg (n : RegName) (v : Word) (s : State) : State :=
  match n with
  | .gp r => setReg r v s
  | .pc => setPc v s
  | .sp => setSp v s
  | .o => setO v s
  | .cycle => setCycle v s

/-- Add a cost to CYCLE, modulo 65536 (R22, R23). -/
def addCycles (n : Nat) (s : State) : State := setCycle (s.cycle + BitVec.ofNat 16 n) s

/-! ## Fetching and skipping -/

/-- Consume the word at PC: its value, and the state with PC past it, modulo 65536 (R70 `NextWord`,
R91 fetch, R15). -/
def nextWord (s : State) : Word × State := (memRead s.pc s, setPc (s.pc + 1) s)

/-- `extra(c)` of an operand code (R52). -/
def extraOfCode (c : Code) : Nat := (Operand.ofCode c).extra

/-- `SkipNext()`: pass over the instruction at PC, its first word always cut as a basic word, and add
one cycle; nothing else changes, whatever the word is (R130, R131, log entry 9). -/
def skipNext (s : State) : State :=
  let w := memRead s.pc s
  addCycles 1
    (setPc (s.pc + BitVec.ofNat 16 (1 + extraOfCode (aField w) + extraOfCode (bField w))) s)

/-! ## The stack, halting and fatal errors -/

/-- Store a word at the new top of stack: `SP <- SP - 1; MemWrite(SP, 1, v)` (R141, R17). -/
def pushWord (v : Word) (s : State) : State :=
  memWrite (s.sp - 1) v (setSp (s.sp - 1) s)

/-- `raise <Kind>`: the status becomes Faulted; every change made so far is kept, nothing is saved
and nothing else changes (R146, R152). There is no return from it (R153). -/
def raise (k : FaultKind) (s : State) : State := { s with status := .faulted k }

/-- `status <- Halted` (R140). -/
def halt (s : State) : State := { s with status := .halted }

end Sys2Proof.Machine
end

