-- ==== Sys2Proof/Machine/Operands.lean ====
section
/-! DEFINITION. The unit `operand_resolver` (40_operand_resolver.md) and access through references. -/

namespace Sys2Proof.Machine

/-- Consume an extra word for an operand: `NextWord()` and one cycle (R70). -/
def extraWord (s : State) : Word × State :=
  let n := nextWord s
  (n.1, addCycles 1 n.2)

/-- `Resolve(code)`: the reference and the state with the side effects on PC, SP and CYCLE
(R71 to R82; the effects are tabulated in R84). -/
def resolve (operand : Operand) (s : State) : Ref × State :=
  match operand with
  | .reg r => (.cell (.reg (.gp r)), s)
  | .regInd r => (.cell (.mem (getReg r s)), s)
  | .regIdx r =>
    let n := extraWord s
    (.cell (.mem (getReg r n.2 + n.1)), n.2)
  | .pop => (.cell (.mem s.sp), setSp (s.sp + 1) s)
  | .peek => (.cell (.mem s.sp), s)
  | .push => (.cell (.mem (s.sp - 1)), setSp (s.sp - 1) s)
  | .sp => (.cell (.reg .sp), s)
  | .pc => (.cell (.reg .pc), s)
  | .o => (.cell (.reg .o), s)
  | .absolute =>
    let n := extraWord s
    (.cell (.mem n.1), n.2)
  | .nextWord => (.cell (.mem s.pc), (extraWord s).2)
  | .lit v => (.lit v, s)

/-- `ReadRef` of a cell reference (R7). -/
def readCell (c : CellRef) (s : State) : Word :=
  match c with
  | .reg n => readReg n s
  | .mem addr => memRead addr s

/-- `ReadRef` (R7): a literal is its own value, zero-extended (R55). -/
def readRef (r : Ref) (s : State) : Word :=
  match r with
  | .cell c => readCell c s
  | .lit v => v.setWidth 16

/-- `WriteRef` (R7). It takes a cell reference only: a literal destination has faulted before (R93). -/
def writeCell (c : CellRef) (v : Word) (s : State) : State :=
  match c with
  | .reg n => writeReg n v s
  | .mem addr => memWrite addr v s

end Sys2Proof.Machine
end

