-- ==== Sys2Proof/Machine/Basic.lean ====
section
/-! DEFINITION. The common frame of the fifteen basic instructions (41_execute_step.md R93 to R97). -/

namespace Sys2Proof.Machine

/-- Write the result if there is one, truncated to a word (R96, R10). -/
def applyResult (result : Option Int) (ra : CellRef) (s : State) : State :=
  match result with
  | none => s
  | some v => writeCell ra (trunc16 v) s

/-- Write O if the operation does, after the destination, so that it wins over a result written to O
(R96, R19). -/
def applyOvf (ovf : Option Int) (s : State) : State :=
  match ovf with
  | none => s
  | some v => setO (trunc16 v) s

/-- Discard the next instruction if the operation says so (R130). -/
def applySkip (skip : Bool) (s : State) : State := if skip then skipNext s else s

/-- `ExecBasic` after both operands are resolved: destination, then O, then the base cost, then the
skip (41 `ExecBasic`, R96, R97). -/
def finishBasic (cost : Nat) (e : Effect) (ra : CellRef) (s : State) : State :=
  applySkip e.skip (addCycles cost (applyOvf e.ovf (applyResult e.result ra s)))

/-- A basic instruction (R93 to R97): resolve `a` and raise `DecodeError` if it is a literal, before
`b` is looked at; resolve `b` and read it; read `a`; compute; finish. The order is log entry 8. -/
def execBasic (cost : Nat) (f : Nat → Nat → Effect) (a b : Operand) (s : State) :
    Host.Outcome State Fault Refusal :=
  match resolve a s with
  | (.lit _, s₁) => .next (raise .decodeError s₁)
  | (.cell ra, s₁) =>
    let rb := resolve b s₁
    let vb := readRef rb.1 rb.2
    let va := readCell ra rb.2
    .next (finishBasic cost (f va.toNat vb.toNat) ra rb.2)

end Sys2Proof.Machine
end

