-- ==== Sys2Proof/Machine/Flags.lean ====
section
/-! DEFINITION. The unit `overflow_flag_unit`: what ADD, SUB, MUL, DIV, SHL and SHR write to O
(10_state.md R21), over unbounded integers, `va` being the value of `a` before the operation. The
other instructions keep O.

DIV, SHL and SHR take the parameter `OVF_OPERAND`: under `original` the formulas are the rules', under
`mutated` they are 93 K2's reconstruction, which puts the stored result in the place of `va`
(log entry 5). -/

namespace Sys2Proof.Machine

/-- ADD: the carry out, 0 or 1 (R110). -/
def ovfAdd (va vb : Nat) : Nat := (va + vb) >>> 16

/-- SUB: 0xFFFF on borrow, else 0 (R111). -/
def ovfSub (va vb : Nat) : Nat := if va < vb then 0xFFFF else 0

/-- MUL: the high half of the product (R112). -/
def ovfMul (va vb : Nat) : Nat := (va * vb) >>> 16

/-- DIV: the first sixteen binary places of the fraction, 0 when the divisor is 0 (R113). -/
def ovfDiv (p : OvfOperand) (va vb : Nat) : Nat :=
  if vb = 0 then 0
  else match p with
    | .original => ((va <<< 16) / vb) % 65536
    | .mutated => ((((va / vb) % 65536) <<< 16) / vb) % 65536

/-- SHL: the bits shifted out at the top (R120). -/
def ovfShl (p : OvfOperand) (va vb : Nat) : Nat :=
  match p with
  | .original => ((va <<< vb) >>> 16) % 65536
  | .mutated => ((((va <<< vb) % 65536) <<< vb) >>> 16) % 65536

/-- SHR: the bits shifted out at the bottom, left-aligned (R121). -/
def ovfShr (p : OvfOperand) (va vb : Nat) : Nat :=
  match p with
  | .original => ((va <<< 16) >>> vb) % 65536
  | .mutated => ((((va >>> vb) % 65536) <<< 16) >>> vb) % 65536

end Sys2Proof.Machine
end

