-- ==== Sys2Proof/Machine/Arith.lean ====
section
/-! DEFINITION. ADD, SUB, MUL, DIV, MOD (43_arithmetic.md): unsigned, modulo 65536 (R115). -/

namespace Sys2Proof.Machine

/-- `f_ADD` (R110). -/
def fAdd (va vb : Nat) : Effect :=
  ⟨some (va + vb : Nat), some (ovfAdd va vb), false⟩

/-- ADD `a, b` (R110). -/
def execAdd (a b : Operand) (s : State) : Host.Outcome State Fault Refusal :=
  execBasic 2 fAdd a b s

/-- `f_SUB` (R111). -/
def fSub (va vb : Nat) : Effect :=
  ⟨some ((va : Int) - vb), some (ovfSub va vb), false⟩

/-- SUB `a, b` (R111). -/
def execSub (a b : Operand) (s : State) : Host.Outcome State Fault Refusal :=
  execBasic 2 fSub a b s

/-- `f_MUL` (R112). -/
def fMul (va vb : Nat) : Effect :=
  ⟨some (va * vb : Nat), some (ovfMul va vb), false⟩

/-- MUL `a, b` (R112). -/
def execMul (a b : Operand) (s : State) : Host.Outcome State Fault Refusal :=
  execBasic 2 fMul a b s

/-- `f_DIV` (R113). -/
def fDiv (va vb : Nat) : Effect :=
  ⟨some (if vb = 0 then 0 else va / vb : Nat), some (ovfDiv Config.ovfOperand va vb), false⟩

/-- DIV `a, b`: a zero divisor gives 0 and O = 0, it is no fault (R113). -/
def execDiv (a b : Operand) (s : State) : Host.Outcome State Fault Refusal :=
  execBasic 3 fDiv a b s

/-- `f_MOD` (R114). -/
def fMod (va vb : Nat) : Effect :=
  ⟨some (if vb = 0 then 0 else va % vb : Nat), none, false⟩

/-- MOD `a, b`: a zero divisor gives 0; O is unchanged in every case (R114). -/
def execMod (a b : Operand) (s : State) : Host.Outcome State Fault Refusal :=
  execBasic 3 fMod a b s

end Sys2Proof.Machine
end

