-- ==== Sys2Proof/Machine/Cond.lean ====
section
/-! DEFINITION. IFE, IFN, IFG, IFB (45_conditional_skip.md): two cycles, nothing written, the next
instruction skipped (one more cycle) when the test fails. -/

namespace Sys2Proof.Machine

/-- `f_IFE` (R125). -/
def fIfe (va vb : Nat) : Effect :=
  ⟨none, none, decide (va ≠ vb)⟩

/-- IFE `a, b`: skip unless equal (R125). -/
def execIfe (a b : Operand) (s : State) : Host.Outcome State Fault Refusal :=
  execBasic 2 fIfe a b s

/-- `f_IFN` (R126). -/
def fIfn (va vb : Nat) : Effect :=
  ⟨none, none, decide (va = vb)⟩

/-- IFN `a, b`: skip if equal (R126). -/
def execIfn (a b : Operand) (s : State) : Host.Outcome State Fault Refusal :=
  execBasic 2 fIfn a b s

/-- `f_IFG` (R127). -/
def fIfg (va vb : Nat) : Effect :=
  ⟨none, none, decide (va ≤ vb)⟩

/-- IFG `a, b`: skip unless `a` is greater, unsigned (R127). -/
def execIfg (a b : Operand) (s : State) : Host.Outcome State Fault Refusal :=
  execBasic 2 fIfg a b s

/-- `f_IFB` (R128). -/
def fIfb (va vb : Nat) : Effect :=
  ⟨none, none, decide (va &&& vb = 0)⟩

/-- IFB `a, b`: skip unless the operands have a common set bit (R128). -/
def execIfb (a b : Operand) (s : State) : Host.Outcome State Fault Refusal :=
  execBasic 2 fIfb a b s

end Sys2Proof.Machine
end

