-- ==== Sys2Proof/Machine/Extended.lean ====
section
/-! DEFINITION. HLT, JSR and the undefined extended opcodes (46_extended.md). -/

namespace Sys2Proof.Machine

/-- HLT: the status becomes Halted; no operand is resolved and no cycle is added (R140,
log entry 7). -/
def execHlt (s : State) : Host.Outcome State Fault Refusal := .next (halt s)

/-- JSR `a` (R141): resolve the operand and read the target before the push, push PC (which is past
every word of the JSR), jump. -/
def execJsr (a : Operand) (s : State) : Host.Outcome State Fault Refusal :=
  let r := resolve a s
  let target := readRef r.1 r.2
  .next (addCycles 2 (setPc target (pushWord r.2.pc r.2)))

/-- An undefined extended opcode under a policy: the normative one raises `IllegalExtendedOpcode`
before the operand field is resolved (R142, R149, log entry 6). -/
def illegalExtended (p : IllegalExtPolicy) (field : Code) (s : State) :
    Host.Outcome State Fault Refusal :=
  match p with
  | .fault => .next (raise .illegalExtendedOpcode s)
  | .ignore resolveOperand =>
    .next (if resolveOperand then (resolve (Operand.ofCode field) s).2 else s)

/-- Extended opcodes 0x02 to 0x03 (R142). -/
def execIllegalExt02To03 (field : Code) (s : State) : Host.Outcome State Fault Refusal :=
  illegalExtended Config.illegalExtPolicy field s

/-- Extended opcodes 0x04 to 0x07 (R142). -/
def execIllegalExt04To07 (field : Code) (s : State) : Host.Outcome State Fault Refusal :=
  illegalExtended Config.illegalExtPolicy field s

/-- Extended opcodes 0x08 to 0x0F (R142). -/
def execIllegalExt08To0F (field : Code) (s : State) : Host.Outcome State Fault Refusal :=
  illegalExtended Config.illegalExtPolicy field s

/-- Extended opcodes 0x10 to 0x1F (R142). -/
def execIllegalExt10To1F (field : Code) (s : State) : Host.Outcome State Fault Refusal :=
  illegalExtended Config.illegalExtPolicy field s

/-- Extended opcodes 0x20 to 0x3F (R142). -/
def execIllegalExt20To3F (field : Code) (s : State) : Host.Outcome State Fault Refusal :=
  illegalExtended Config.illegalExtPolicy field s

end Sys2Proof.Machine
end

