-- ==== Sys2Proof/Machine/SetLogic.lean ====
section
/-! DEFINITION. SET, AND, OR, XOR (42_set_and_logic.md): one cycle, O unchanged. -/

namespace Sys2Proof.Machine

/-- `f_SET` (R105). -/
def fSet (_va vb : Nat) : Effect :=
  ⟨some vb, none, false⟩

/-- SET `a, b`: `a` takes the value of `b`; the old value of `a` is not used (R105). -/
def execSet (a b : Operand) (s : State) : Host.Outcome State Fault Refusal :=
  execBasic 1 fSet a b s

/-- `f_AND` (R106). -/
def fAnd (va vb : Nat) : Effect :=
  ⟨some (va &&& vb : Nat), none, false⟩

/-- AND `a, b` (R106). -/
def execAnd (a b : Operand) (s : State) : Host.Outcome State Fault Refusal :=
  execBasic 1 fAnd a b s

/-- `f_OR` (R107). -/
def fOr (va vb : Nat) : Effect :=
  ⟨some (va ||| vb : Nat), none, false⟩

/-- OR `a, b` (R107). -/
def execOr (a b : Operand) (s : State) : Host.Outcome State Fault Refusal :=
  execBasic 1 fOr a b s

/-- `f_XOR` (R108). -/
def fXor (va vb : Nat) : Effect :=
  ⟨some (va ^^^ vb : Nat), none, false⟩

/-- XOR `a, b` (R108). -/
def execXor (a b : Operand) (s : State) : Host.Outcome State Fault Refusal :=
  execBasic 1 fXor a b s

end Sys2Proof.Machine
end

