-- ==== Sys2Proof/Machine/Shift.lean ====
section
/-! DEFINITION. SHL, SHR (44_shifts.md): the count is the whole word `b`, never reduced (R122, log
entry 10). -/

namespace Sys2Proof.Machine

/-- `f_SHL` (R120). -/
def fShl (va vb : Nat) : Effect :=
  ⟨some (va <<< vb : Nat), some (ovfShl Config.ovfOperand va vb), false⟩

/-- SHL `a, b` (R120). -/
def execShl (a b : Operand) (s : State) : Host.Outcome State Fault Refusal :=
  execBasic 2 fShl a b s

/-- `f_SHR` (R121). -/
def fShr (va vb : Nat) : Effect :=
  ⟨some (va >>> vb : Nat), some (ovfShr Config.ovfOperand va vb), false⟩

/-- SHR `a, b`, a logical shift (R121). -/
def execShr (a b : Operand) (s : State) : Host.Outcome State Fault Refusal :=
  execBasic 2 fShr a b s

end Sys2Proof.Machine
end

