-- ==== Sys2Proof/Machine/Dispatch.lean ====
section
/-! DEFINITION. The unit `alu_dispatch`: one arm per instruction (41_execute_step.md R90). -/

namespace Sys2Proof.Machine

def exec (i : Instr) (s : State) : Host.Outcome State Fault Refusal :=
  match i with
  | .set a b => Sys2Proof.Machine.execSet a b s
  | .add a b => Sys2Proof.Machine.execAdd a b s
  | .sub a b => Sys2Proof.Machine.execSub a b s
  | .mul a b => Sys2Proof.Machine.execMul a b s
  | .div a b => Sys2Proof.Machine.execDiv a b s
  | .mod a b => Sys2Proof.Machine.execMod a b s
  | .shl a b => Sys2Proof.Machine.execShl a b s
  | .shr a b => Sys2Proof.Machine.execShr a b s
  | .and a b => Sys2Proof.Machine.execAnd a b s
  | .or a b => Sys2Proof.Machine.execOr a b s
  | .xor a b => Sys2Proof.Machine.execXor a b s
  | .ife a b => Sys2Proof.Machine.execIfe a b s
  | .ifn a b => Sys2Proof.Machine.execIfn a b s
  | .ifg a b => Sys2Proof.Machine.execIfg a b s
  | .ifb a b => Sys2Proof.Machine.execIfb a b s
  | .hlt _ => Sys2Proof.Machine.execHlt s
  | .jsr a => Sys2Proof.Machine.execJsr a s
  | .illegalExt02To03 _ field => Sys2Proof.Machine.execIllegalExt02To03 field s
  | .illegalExt04To07 _ field => Sys2Proof.Machine.execIllegalExt04To07 field s
  | .illegalExt08To0F _ field => Sys2Proof.Machine.execIllegalExt08To0F field s
  | .illegalExt10To1F _ field => Sys2Proof.Machine.execIllegalExt10To1F field s
  | .illegalExt20To3F _ field => Sys2Proof.Machine.execIllegalExt20To3F field s

end Sys2Proof.Machine
end

