-- ==== Sys2Proof/Machine/Step.lean ====
section
/-! DEFINITION. One step of the core (41_execute_step.md R90, R91, R99). -/

namespace Sys2Proof.Machine

/-- One whole instruction: fetch the word at PC and move PC past it, decode, execute (R90). A core
that is not running does nothing (R99). -/
def step (s : State) : Host.Outcome State Fault Refusal :=
  match s.status with
  | .running =>
    let n := nextWord s
    exec (decodeWord n.1) n.2
  | .halted | .faulted _ => .next s

/-- Store words at an address and the addresses after it, modulo 65536 (R56). -/
def storeWords (addr : Word) : List Word → State → State
  | [], s => s
  | w :: ws, s => storeWords (addr + 1) ws (memWrite addr w s)

/-- `s` running, with the words of `w` where the next step fetches. It stands for a program the host
has mounted (log entry 3). -/
def State.withFetchWord (s : State) (nbits w : Nat) : State :=
  storeWords s.pc (tableWords nbits w) { s with status := .running }

end Sys2Proof.Machine
end

