-- ==== Sys2Proof/Machine/HostOps.lean ====
section
/-! DEFINITION. What the host can do to the core (00_scope.md R5): mount an image, step, run, and read
registers and memory between steps. The host writes nothing except through `mount`. -/

namespace Sys2Proof.Machine

/-- The memory that holds an image from an address on, and zero elsewhere, in canonical form
(R160). -/
def imageFrom (addr : Nat) : List Word → Memory
  | [] => []
  | w :: ws => Memory.cons addr w (imageFrom (addr + 1) ws)

/-- The state after mounting an image: the reset state with the image from address 0 (R26, R160). -/
def mounted (image : List Word) : State := { State.reset with mem := imageFrom 0 image }

/-- `mount(image)`, the only reset (R160). It may be called in any state and forgets it. An image
longer than memory is refused before anything is written (R148, 92 D18, log entry 4). -/
def mount (image : List Word) (_ : State) : Host.Outcome State Fault Refusal :=
  if Config.maxImageWords < image.length then .fault .boundsError else .next (mounted image)

/-- Go on from an outcome if it is a next state. -/
def andThen (r : Host.Outcome State Fault Refusal) (f : State → Host.Outcome State Fault Refusal) :
    Host.Outcome State Fault Refusal :=
  match r with
  | .next s => f s
  | .fault e => .fault e
  | .refused e => .refused e

/-- `run`: while the status is Running, step (R100), at most `fuel` times (93 K11: `run` need not
terminate; log entry 11). -/
def run : Nat → State → Host.Outcome State Fault Refusal
  | 0, s => .next s
  | fuel + 1, s =>
    match s.status with
    | .running => andThen (step s) (run fuel)
    | .halted | .faulted _ => .next s

/-- `execute(image)`: `mount`, then `run` (R100). -/
def execute (fuel : Nat) (image : List Word) (s : State) : Host.Outcome State Fault Refusal :=
  andThen (mount image s) (run fuel)

/-- The host's operations that can change the core (R5 a, b, c). -/
inductive HostOp where
  | mount (image : List Word)
  | step
  | run (fuel : Nat)
  deriving DecidableEq, Repr

/-- What a host operation does. -/
def hostOp (op : HostOp) (s : State) : Host.Outcome State Fault Refusal :=
  match op with
  | .mount image => mount image s
  | .step => step s
  | .run fuel => run fuel s

/-- Reading a register between steps, CYCLE included (R5 d). -/
def hostReadReg (n : RegName) (s : State) : Word := readReg n s

/-- Reading a memory word between steps (R5 d, R44). -/
def hostReadMem (addr : Word) (s : State) : Word := memRead addr s

end Sys2Proof.Machine
end

