-- ==== Sys2Proof/Safety.lean ====
section
/-! DEFINITION. What a safe run and a successful end are, in the terms claims use. -/

namespace Sys2Proof.Machine

/-- No fatal error has happened: a premise of every claim about a program's result (R146, 93 K10). -/
def State.notFaulted (s : State) : Prop := ∀ k, s.status ≠ .faulted k

/-- A run has ended successfully: only in status Halted (R166). -/
def State.succeeded (s : State) : Prop := s.status = .halted

/-- What every state of the machine keeps: the memory is in canonical form, so every listed word lies
inside the address space of 65536 words (R30), and no step leaves the status `BoundsError`, which
belongs to `mount` (R145, R151). -/
def State.Inv (s : State) : Prop := s.mem.wf = true ∧ s.status ≠ .faulted .boundsError

/-- A halted core stands one past a HLT word: the word at PC - 1 has its low ten bits 0 (R140, R166). -/
def State.HaltedOnePastHlt (s : State) : Prop :=
  s.status = .halted → (memRead (s.pc - 1) s).toNat % 1024 = 0

/-! ## The terms claims about basic instructions use -/

/-- How resolving an operand moves SP (R84): +1 for POP, -1 for PUSH, 0 for every other operand. -/
def spMove : Operand → Word
  | .pop => 1
  | .push => -1
  | .reg _ | .regInd _ | .regIdx _ | .peek | .sp | .pc | .o | .absolute | .nextWord | .lit _ => 0

/-- Whether an operand is a short literal, which cannot be a destination (R82, R85). -/
def isLiteral : Operand → Bool
  | .lit _ => true
  | .reg _ | .regInd _ | .regIdx _ | .pop | .peek | .push | .sp | .pc | .o | .absolute | .nextWord =>
    false

/-- What a basic instruction works on (R93 to R95): `a` resolves to the cell `ra`, `b` is resolved
after it, `s₂` is the state then, and the values `va` and `vb` are both read in `s₂`. -/
def Reads (a b : Operand) (s : State) (ra : CellRef) (va vb : Word) (s₂ : State) : Prop :=
  (resolve a s).1 = .cell ra ∧ s₂ = (resolve b (resolve a s).2).2 ∧
    va = readCell ra s₂ ∧ vb = readRef (resolve b (resolve a s).2).1 s₂

end Sys2Proof.Machine
end

