-- ==== Sys2Proof/Certificates/Slice0/Obligations.lean ====
section
/-! DEFINITION. The statements for the provers. Each docstring names the rules of spec/ it rests on.

`s` is always the state `exec` is given: PC is already past the instruction's first word (R91). -/

namespace Sys2Proof.Claims

open Sys2Proof.Machine

/-! ## Vocabulary: the rules' own tables, written apart from the model's definitions -/

/-- `extra(c)` by the numbers of R52. -/
def extraNum (c : Code) : Nat :=
  if (0x10 ≤ c.toNat ∧ c.toNat ≤ 0x17) ∨ c.toNat = 0x1E ∨ c.toNat = 0x1F then 1 else 0

/-- A cost or a number of words as a word, modulo 65536. -/
abbrev ofCount (n : Nat) : Word := BitVec.ofNat 16 n

/-- ADD, SUB, MUL, DIV, SHL, SHR: the instructions that write O (R21). -/
def oWriting : List (Operand → Operand → Instr) := [.add, .sub, .mul, .div, .shl, .shr]

/-- SET, MOD, AND, OR, XOR: the instructions that write their destination and leave O alone (R21). -/
def oKeeping : List (Operand → Operand → Instr) := [.set, .mod, .and, .or, .xor]

/-- IFE, IFN, IFG, IFB: the instructions that write nothing (R125 to R128). -/
def conditionals : List (Operand → Operand → Instr) := [.ife, .ifn, .ifg, .ifb]

/-- The instructions that write their destination. -/
def writing : List (Operand → Operand → Instr) := oWriting ++ oKeeping

/-- The fifteen basic instructions (R57). -/
def basic : List (Operand → Operand → Instr) := writing ++ conditionals

/-- The fifteen basic instructions in the order of their numbers 0x1 to 0xF (R57): SET is the source's
number, the others are the spec's decision D4 (log entry 2). -/
def byOpcode : List (Operand → Operand → Instr) :=
  [.set, .add, .sub, .mul, .div, .mod, .shl, .shr, .and, .or, .xor, .ife, .ifn, .ifg, .ifb]

/-- The illegal extended words (R59). -/
def isIllegal : Instr → Bool
  | .illegalExt02To03 _ _ | .illegalExt04To07 _ _ | .illegalExt08To0F _ _
  | .illegalExt10To1F _ _ | .illegalExt20To3F _ _ => true
  | .set _ _ | .add _ _ | .sub _ _ | .mul _ _ | .div _ _ | .mod _ _ | .shl _ _ | .shr _ _
  | .and _ _ | .or _ _ | .xor _ _ | .ife _ _ | .ifn _ _ | .ifg _ _ | .ifb _ _
  | .hlt _ | .jsr _ => false

/-- The instruction a step executes, and the state it executes it in (R91). -/
def fetched (s : State) : Instr := decodeWord (memRead s.pc s)

/-- The state after the fetch (R91). -/
def afterFetch (s : State) : State := { s with pc := s.pc + 1 }

/-- `SkipNext()` by the numbers of R130 and R52. -/
def passOver (s : State) : State :=
  let w := memRead s.pc s
  { s with
    pc := s.pc + ofCount (1 + extraNum (w.extractLsb' 4 6) + extraNum (w.extractLsb' 10 6))
    cycle := s.cycle + 1 }

/-- Write O if there is a value for it. -/
def withO (v : Option Word) (s : State) : State :=
  match v with
  | none => s
  | some o => { s with o := o }

/-- The instruction `mk` completes for every operand pair whose destination is no literal, in every
state: it resolves and reads its operands as `Reads` says, writes `result` to its destination, THEN
`ovf` to O if there is one, and adds its cost and one cycle per extra word to CYCLE. Nothing else
changes: the next state is given whole. -/
def Writes (mk : Operand → Operand → Instr) (cost : Nat) (result : Word → Word → Word)
    (ovf : Word → Word → Option Word) : Prop :=
  ∀ (a b : Operand) (s : State), isLiteral a = false →
    ∃ ra va vb s₂ t, Reads a b s ra va vb s₂ ∧ exec (mk a b) s = .next t ∧
      t = addCycles cost (withO (ovf va vb) (writeCell ra (result va vb) s₂)) ∧
      t.cycle = s.cycle + ofCount (cost + extraNum a.code + extraNum b.code)

/-- The conditional `mk` completes for every operand pair whose destination is no literal, in every
state: two cycles and one per extra word; when its test fails, the next instruction is passed over
for one cycle more. Nothing else changes. -/
def Tests (mk : Operand → Operand → Instr) (holds : Word → Word → Prop) : Prop :=
  ∀ (a b : Operand) (s : State), isLiteral a = false →
    ∃ ra va vb s₂ t, Reads a b s ra va vb s₂ ∧ exec (mk a b) s = .next t ∧
      (holds va vb → t = addCycles 2 s₂ ∧
        t.cycle = s.cycle + ofCount (2 + extraNum a.code + extraNum b.code)) ∧
      (¬ holds va vb → t = passOver (addCycles 2 s₂) ∧
        t.cycle = s.cycle + ofCount (3 + extraNum a.code + extraNum b.code))

end Sys2Proof.Claims

section

open Sys2Proof Sys2Proof.Machine Sys2Proof.Claims

/-! ## Encoding -/

/-- Decoding the words of any well-formed instruction, whatever words follow, gives the instruction,
its extra words and the words that follow (R62). -/
def Obligations.EncodedInstructionsDecodeBack : Prop :=
  ∀ (x : Assembled) (rest : List Word), x.wellFormed = true →
    decode (encode x ++ rest) = .ok (x, rest)

/-- Every word is the encoding of the one instruction it decodes to (R54, R62). -/
def Obligations.EveryWordEncodesItsInstruction : Prop :=
  ∀ w : Word, (decodeWord w).wellFormed = true ∧ encodeWord (decodeWord w) = w

/-- The fields of a word, as numbers (R51). -/
def Obligations.FieldsOfAWord : Prop :=
  ∀ w : Word, (opField w).toNat = w.toNat % 16 ∧ (aField w).toNat = w.toNat / 16 % 64 ∧
    (bField w).toNat = w.toNat / 1024 % 64 ∧
    w.toNat = (bField w).toNat * 1024 + (aField w).toNat * 16 + (opField w).toNat

/-- A few words written out in the spec decode to the instructions the spec says. All but the first
rest on the opcode numbers of the spec's decision D4 (log entry 2). -/
def Obligations.SpecWordsDecode : Prop :=
  decodeWord 0x7C01 = .set (.reg .a) .nextWord ∧
  decodeWord 0x85F2 = .add .nextWord (.lit 1) ∧
  decodeWord 0x4401 = .set (.reg .a) (.regIdx .b) ∧
  decodeWord 0x61C1 = .set .pc .pop ∧
  decodeWord 0x9007 = .shl (.reg .a) (.lit 4) ∧
  decodeWord 0x7DEC = .ife .absolute .nextWord ∧
  decodeWord 0x7C10 = .jsr .nextWord ∧
  decodeWord 0x7C00 = .hlt 0x1F ∧
  decodeWord 0x01F0 = .illegalExt10To1F 0x1F 0x00

/-- What each word spells, by its fields: every basic opcode 1 to 15 its own instruction, and the
extended words (R54, R57, R58, R59). The numbers of the basic opcodes 0x2 to 0xF and of JSR are the
spec's decision D4 (log entry 2). -/
def Obligations.EveryWordSpellsByItsFields : Prop :=
  ∀ w : Word,
    (opField w ≠ 0 → ∃ mk ∈ basic, byOpcode[(opField w).toNat - 1]? = some mk ∧
      decodeWord w = mk (Operand.ofCode (aField w)) (Operand.ofCode (bField w))) ∧
    (opField w = 0 ∧ aField w = 0 → decodeWord w = .hlt (bField w)) ∧
    (opField w = 0 ∧ aField w = 1 → decodeWord w = .jsr (Operand.ofCode (bField w))) ∧
    (isIllegal (decodeWord w) = true ↔ opField w = 0 ∧ 2 ≤ (aField w).toNat)

/-- The length of an instruction by the numbers of its operand codes (R52). -/
def Obligations.LengthFollowsFromOperandCodes : Prop :=
  (∀ mk ∈ basic, ∀ a b : Operand,
    (mk a b).length = 1 + extraNum a.code + extraNum b.code ∧
      1 ≤ (mk a b).length ∧ (mk a b).length ≤ 3) ∧
  (∀ a : Operand, (Instr.jsr a).length = 1 + extraNum a.code) ∧
  (∀ c : Code, (Instr.hlt c).length = 1)

/-! ## Operands -/

/-- What each of the 64 operand codes resolves to, by its number (R12, R43, R55, R71 to R82). -/
def Obligations.OperandCodesResolveByNumber : Prop :=
  ∀ s : State,
    (∀ (k : Nat) (r : Reg), [Reg.a, .b, .c, .x, .y, .z, .i, .j][k]? = some r →
      (resolve (Operand.ofCode (BitVec.ofNat 6 k)) s).1 = .cell (.reg (.gp r)) ∧
      (resolve (Operand.ofCode (BitVec.ofNat 6 (0x08 + k))) s).1 = .cell (.mem (getReg r s)) ∧
      ∃ addr : Word,
        (resolve (Operand.ofCode (BitVec.ofNat 6 (0x10 + k))) s).1 = .cell (.mem addr) ∧
        addr.toNat = ((getReg r s).toNat + (memRead s.pc s).toNat) % 65536) ∧
    (resolve (Operand.ofCode 0x18) s).1 = .cell (.mem s.sp) ∧
    (resolve (Operand.ofCode 0x19) s).1 = .cell (.mem s.sp) ∧
    (resolve (Operand.ofCode 0x1A) s).1 = .cell (.mem (s.sp - 1)) ∧
    (resolve (Operand.ofCode 0x1B) s).1 = .cell (.reg .sp) ∧
    (resolve (Operand.ofCode 0x1C) s).1 = .cell (.reg .pc) ∧
    (resolve (Operand.ofCode 0x1D) s).1 = .cell (.reg .o) ∧
    (resolve (Operand.ofCode 0x1E) s).1 = .cell (.mem (memRead s.pc s)) ∧
    (resolve (Operand.ofCode 0x1F) s).1 = .cell (.mem s.pc) ∧
    (∀ c : Code, 0x20 ≤ c.toNat →
      ∃ v : BitVec 5, (resolve (Operand.ofCode c) s).1 = .lit v ∧ v.toNat = c.toNat - 0x20)

/-- What resolving an operand changes, by its number, and that it changes nothing else: POP moves SP
after its address is taken, PUSH before (R84). -/
def Obligations.ResolveSideEffects : Prop :=
  ∀ (c : Code) (s t : State), t = (resolve (Operand.ofCode c) s).2 →
    t.pc = s.pc + ofCount (extraNum c) ∧
    t.sp = (if c = 0x18 then s.sp + 1 else if c = 0x1A then s.sp - 1 else s.sp) ∧
    t.cycle = s.cycle + ofCount (extraNum c) ∧
    (c = 0x18 → (resolve (Operand.ofCode c) s).1 = .cell (.mem s.sp)) ∧
    (c = 0x1A → (resolve (Operand.ofCode c) s).1 = .cell (.mem t.sp)) ∧
    (∀ q, getReg q t = getReg q s) ∧ t.o = s.o ∧ (∀ p, memRead p t = memRead p s) ∧
    t.status = s.status

/-- Four forms with SP, PC or O as an operand: `ADD SP, POP` adds to the popped SP, `SET PUSH, SP`
stores the pushed SP, `ADD PC, next-word` adds to the PC past the extra word, and `ADD O, r` leaves the
carry in O (R77, R78, R95, R96, R19). The general rule, for every operand pair, is in `Reads`, which
every result statement below rests on. -/
def Obligations.FourFormsOfAddAndSetOnSpPcAndO : Prop :=
  ∀ s : State,
    (∃ t, exec (.add .sp .pop) s = .next t ∧ t.sp = (s.sp + 1) + memRead s.sp s) ∧
    (s.mem.wf = true → ∃ t, exec (.set .push .sp) s = .next t ∧ t.sp = s.sp - 1 ∧
      memRead (s.sp - 1) t = s.sp - 1) ∧
    (∃ t, exec (.add .pc .nextWord) s = .next t ∧ t.pc = (s.pc + 1) + memRead s.pc s) ∧
    (∀ r, ∃ t, exec (.add .o (.reg r)) s = .next t ∧
      t.o = if s.o.toNat + (getReg r s).toNat > 0xFFFF then 1 else 0)

/-! ## Memory and the invariant -/

/-- Every step keeps the invariant: the memory in canonical form inside the address space (R30, log
entry 1), and no status `BoundsError` (R151). -/
def Obligations.EveryStepKeepsTheInvariant : Prop :=
  ∀ s t : State, s.Inv → step s = .next t → t.Inv

/-- The reset state meets the invariant. -/
def Obligations.ResetMeetsTheInvariant : Prop := State.reset.Inv

/-- Every host operation keeps the invariant: `mount` of any image, a step, a run of any length
(R5). -/
def Obligations.EveryHostOperationKeepsTheInvariant : Prop :=
  ∀ (op : HostOp) (s t : State), s.Inv → hostOp op s = .next t → t.Inv

/-- A read gives the most recent write to its address and is untouched by writes to others (R34,
R39). -/
def Obligations.ReadGivesTheMostRecentWrite : Prop :=
  ∀ (s : State) (addr v p : Word), s.mem.wf = true →
    memRead p (memWrite addr v s) = if p = addr then v else memRead p s

/-- Canonical memories that read the same everywhere are equal data (the model's form, log entry 1). -/
def Obligations.CanonicalMemoriesWithEqualReadsAreEqual : Prop :=
  ∀ m m' : Memory, m.wf = true → m'.wf = true → (∀ addr, m.read addr = m'.read addr) → m = m'

/-! ## The step -/

/-- Every step answers a next state: no instruction is refused and no step stops the model (R54, R90,
R146). -/
def Obligations.EveryStepAnswersANextState : Prop := ∀ s : State, ∃ t, step s = .next t

/-- A step of a core that is not running changes nothing (R99). -/
def Obligations.StepWhenNotRunningChangesNothing : Prop :=
  ∀ s : State, s.status ≠ .running → step s = .next s

/-- When the word at PC is that of a well-formed instruction, a step of a running core is that
instruction's execution with PC past the word (R90, R91). -/
def Obligations.StepRunsTheDecodedInstruction : Prop :=
  ∀ (i : Instr) (s : State), i.wellFormed = true → s.status = .running →
    memRead s.pc s = encodeWord i → step s = exec i { s with pc := s.pc + 1 }

/-- Exactly which words halt the core or fault it (R145, R147, R149, R151, R166). -/
def Obligations.StatusAfterAStepByTheFetchedWord : Prop :=
  ∀ (s t : State) (w : Word), s.status = .running → step s = .next t → w = memRead s.pc s →
    (t.status = .halted ↔ w.toNat % 1024 = 0) ∧
    (t.status = .faulted .decodeError ↔ w.toNat % 16 ≠ 0 ∧ w.getLsbD 9 = true) ∧
    (t.status = .faulted .illegalExtendedOpcode ↔ w.toNat % 16 = 0 ∧ 2 ≤ w.toNat / 16 % 64) ∧
    t.status ≠ .faulted .boundsError

/-- A step that faults changes nothing but the status and PC, which is one past the faulting word
(R146, R147, R149, R152). -/
def Obligations.FaultsArePrecise : Prop :=
  ∀ (s t : State) (k : FaultKind), s.status = .running → step s = .next t →
    t.status = .faulted k → t = { s with pc := s.pc + 1, status := .faulted k }

/-- All fifteen basic instructions raise `DecodeError` for a literal destination, before the source is
looked at (R93, R147). -/
def Obligations.LiteralDestinationRaisesDecodeError : Prop :=
  ∀ mk ∈ basic, ∀ (v : BitVec 5) (b : Operand) (s : State),
    exec (mk (.lit v) b) s = .next { s with status := .faulted .decodeError }

/-! ## What each instruction does -/

/-- SET: the destination takes the value of the source; O unchanged; 1 cycle (R105). -/
def Obligations.SetCopies : Prop := Writes .set 1 (fun _ vb => vb) (fun _ _ => none)

/-- AND: bitwise and; O unchanged; 1 cycle (R106). -/
def Obligations.AndIsBitwise : Prop := Writes .and 1 (fun va vb => va &&& vb) (fun _ _ => none)

/-- OR: bitwise inclusive or; O unchanged; 1 cycle (R107). -/
def Obligations.OrIsBitwise : Prop := Writes .or 1 (fun va vb => va ||| vb) (fun _ _ => none)

/-- XOR: bitwise exclusive or; O unchanged; 1 cycle (R108). -/
def Obligations.XorIsBitwise : Prop := Writes .xor 1 (fun va vb => va ^^^ vb) (fun _ _ => none)

/-- ADD: the sum modulo 65536; O is 1 on carry out, else 0; 2 cycles (R110). -/
def Obligations.AddSumsAndCarries : Prop :=
  Writes .add 2 (fun va vb => BitVec.ofNat 16 ((va.toNat + vb.toNat) % 65536))
    (fun va vb => some (if va.toNat + vb.toNat > 0xFFFF then 0x0001 else 0x0000))

/-- SUB: the difference modulo 65536; O is 0xFFFF on borrow, else 0; 2 cycles (R111). -/
def Obligations.SubSubtractsAndBorrows : Prop :=
  Writes .sub 2 (fun va vb => BitVec.ofNat 16 ((va.toNat + 65536 - vb.toNat) % 65536))
    (fun va vb => some (if va.toNat < vb.toNat then 0xFFFF else 0x0000))

/-- MUL: the low half of the unsigned product; O is its high half; 2 cycles (R112). -/
def Obligations.MulSplitsTheProduct : Prop :=
  Writes .mul 2 (fun va vb => BitVec.ofNat 16 (va.toNat * vb.toNat % 65536))
    (fun va vb => some (BitVec.ofNat 16 (va.toNat * vb.toNat / 65536)))

/-- DIV: the quotient; O is the first sixteen binary places of the fraction; both 0 for a zero divisor;
3 cycles (R113). -/
def Obligations.DivGivesQuotientAndFraction : Prop :=
  Writes .div 3 (fun va vb => if vb = 0 then 0 else BitVec.ofNat 16 (va.toNat / vb.toNat))
    (fun va vb => some (if vb = 0 then 0
      else BitVec.ofNat 16 (va.toNat % vb.toNat * 65536 / vb.toNat)))

/-- MOD: the remainder, 0 for a zero divisor; O unchanged; 3 cycles (R114). -/
def Obligations.ModGivesTheRemainder : Prop :=
  Writes .mod 3 (fun va vb => if vb = 0 then 0 else BitVec.ofNat 16 (va.toNat % vb.toNat))
    (fun _ _ => none)

/-- SHL: the low half of `va * 2^vb` as a 32-bit value; O is the high half; any count; 2 cycles (R120,
R122). -/
def Obligations.ShlShiftsIntoO : Prop :=
  Writes .shl 2 (fun va vb => ((va.setWidth 32) <<< vb.toNat).extractLsb' 0 16)
    (fun va vb => some (((va.setWidth 32) <<< vb.toNat).extractLsb' 16 16))

/-- SHR: the high half of the 32-bit value `(va << 16) >> vb`; O is the low half; any count; 2 cycles
(R121, R122). -/
def Obligations.ShrShiftsIntoO : Prop :=
  Writes .shr 2 (fun va vb => ((va.setWidth 32 <<< 16) >>> vb.toNat).extractLsb' 16 16)
    (fun va vb => some (((va.setWidth 32 <<< 16) >>> vb.toNat).extractLsb' 0 16))

/-- IFE: the next instruction executes exactly if the values are equal (R125). -/
def Obligations.IfeTestsEqual : Prop := Tests .ife (fun va vb => va = vb)

/-- IFN: the next instruction executes exactly if the values differ (R126). -/
def Obligations.IfnTestsNotEqual : Prop := Tests .ifn (fun va vb => va ≠ vb)

/-- IFG: the next instruction executes exactly if `a` is greater, unsigned (R127). -/
def Obligations.IfgTestsGreater : Prop := Tests .ifg (fun va vb => va.toNat > vb.toNat)

/-- IFB: the next instruction executes exactly if the values have a common set bit (R128). -/
def Obligations.IfbTestsACommonBit : Prop :=
  Tests .ifb (fun va vb => ∃ k, va.getLsbD k = true ∧ vb.getLsbD k = true)

/-- JSR: the target is read after the operand is resolved and before the push; the address after the
whole JSR is pushed; PC becomes the target; 2 cycles and one for an extra word; nothing else changes
(R141). -/
def Obligations.JsrPushesAndJumps : Prop :=
  ∀ (a : Operand) (s s₁ : State), s.mem.wf = true → s₁ = (resolve a s).2 →
    ∃ t, exec (.jsr a) s = .next t ∧ t.pc = readRef (resolve a s).1 s₁ ∧
      t.sp = s.sp + spMove a - 1 ∧
      memRead (s.sp + spMove a - 1) t = s.pc + ofCount (extraNum a.code) ∧
      (∀ p, p ≠ s.sp + spMove a - 1 → memRead p t = memRead p s) ∧
      (∀ q, getReg q t = getReg q s) ∧ t.o = s.o ∧ t.status = s.status ∧
      t.cycle = s.cycle + ofCount (2 + extraNum a.code)

/-- HLT: every word whose low ten bits are 0 halts the core with PC past it, whatever its other bits,
and changes nothing else (R140). -/
def Obligations.HltStops : Prop :=
  (∀ (c : Code) (s : State), exec (.hlt c) s = .next { s with status := .halted }) ∧
  (∀ s : State, s.status = .running → (memRead s.pc s).toNat % 1024 = 0 →
    step s = .next { s with pc := s.pc + 1, status := .halted })

/-- Extended opcodes 0x02 to 0x3F raise `IllegalExtendedOpcode` with PC past the word; the operand
field is not resolved and nothing else changes (R142, R149). -/
def Obligations.IllegalExtendedOpcodesFault : Prop :=
  (∀ (i : Instr) (s : State), isIllegal i = true →
    exec i s = .next { s with status := .faulted .illegalExtendedOpcode }) ∧
  (∀ s : State, s.status = .running → (memRead s.pc s).toNat % 16 = 0 →
    2 ≤ (memRead s.pc s).toNat / 16 % 64 →
    step s = .next { s with pc := s.pc + 1, status := .faulted .illegalExtendedOpcode })

/-! ## Frames -/

/-- ADD, SUB, MUL, DIV, SHL, SHR leave alone: every general register but a register destination; SP
but for POP and PUSH operands and a destination SP; the status; every memory word but the one the
destination designates. They write O, CYCLE and PC. -/
def Obligations.FrameOfInstructionsWritingO : Prop :=
  ∀ mk ∈ oWriting, ∀ (a b : Operand) (s t : State), isLiteral a = false →
    exec (mk a b) s = .next t →
    (∀ q, a ≠ .reg q → getReg q t = getReg q s) ∧
    (a ≠ .sp → t.sp = s.sp + spMove a + spMove b) ∧ t.status = s.status ∧
    (∀ p, (resolve a s).1 ≠ .cell (.mem p) → memRead p t = memRead p s)

/-- SET, MOD, AND, OR, XOR leave alone what those do, and O too unless it is the destination. They
write CYCLE and PC. -/
def Obligations.FrameOfInstructionsKeepingO : Prop :=
  ∀ mk ∈ oKeeping, ∀ (a b : Operand) (s t : State), isLiteral a = false →
    exec (mk a b) s = .next t →
    (∀ q, a ≠ .reg q → getReg q t = getReg q s) ∧
    (a ≠ .sp → t.sp = s.sp + spMove a + spMove b) ∧ t.status = s.status ∧
    (a ≠ .o → t.o = s.o) ∧
    (∀ p, (resolve a s).1 ≠ .cell (.mem p) → memRead p t = memRead p s)

/-- IFE, IFN, IFG, IFB leave alone every general register, O, the status, all of memory, and SP but for
their own POP and PUSH operands; a skipped instruction changes none of them. They write CYCLE and
PC. -/
def Obligations.FrameOfConditionals : Prop :=
  ∀ mk ∈ conditionals, ∀ (a b : Operand) (s t : State), isLiteral a = false →
    exec (mk a b) s = .next t →
    (∀ q, getReg q t = getReg q s) ∧ t.sp = s.sp + spMove a + spMove b ∧ t.o = s.o ∧
    t.status = s.status ∧ (∀ p, memRead p t = memRead p s)

/-! ## Whole-machine rules -/

/-- A step changes a general register only if it is the destination of the basic instruction it
executes: never as a side effect (R13). -/
def Obligations.GeneralRegistersChangeOnlyAsDestination : Prop :=
  ∀ (s t : State) (q : Reg), s.status = .running → step s = .next t →
    getReg q t ≠ getReg q s → ∃ mk ∈ writing, ∃ b, fetched s = mk (.reg q) b

/-- A step changes O only if it executes one of the six instructions that write O, or O is the
destination (R19, R21). -/
def Obligations.OChangesOnlyByRule : Prop :=
  ∀ s t : State, s.status = .running → step s = .next t → t.o ≠ s.o →
    (∃ mk ∈ oWriting, ∃ a b, fetched s = mk a b ∧ isLiteral a = false) ∨
    (∃ mk ∈ oKeeping, ∃ b, fetched s = mk .o b)

/-- A step changes SP only through a POP or PUSH operand of the instruction it executes, a destination
SP, or JSR (R16); a skipped instruction does not move it (R130). -/
def Obligations.SpChangesOnlyByRule : Prop :=
  ∀ s t : State, s.status = .running → step s = .next t → t.sp ≠ s.sp →
    (∃ mk ∈ basic, ∃ a b, fetched s = mk a b ∧ isLiteral a = false ∧
      (a = .pop ∨ a = .push ∨ b = .pop ∨ b = .push)) ∨
    (∃ mk ∈ writing, ∃ b, fetched s = mk .sp b) ∨
    (∃ a, fetched s = .jsr a)

/-- A step changes a memory word only if it is the destination of the basic instruction it executes,
or the new top of stack of a JSR (R31). -/
def Obligations.MemoryChangesOnlyWhereStored : Prop :=
  ∀ (s t : State) (p : Word), s.status = .running → step s = .next t →
    memRead p t ≠ memRead p s →
    (∃ mk ∈ writing, ∃ a b, fetched s = mk a b ∧
      (resolve a (afterFetch s)).1 = .cell (.mem p)) ∨
    (∃ a, fetched s = .jsr a ∧ p = s.sp + spMove a - 1)

/-- No operand names CYCLE, and nothing a step does depends on it: a step from a state whose CYCLE is
`n` higher, modulo 65536, gives the same next state with CYCLE `n` higher. The host reads it
(R23). -/
def Obligations.NothingDependsOnCycle : Prop :=
  (∀ s : State, hostReadReg .cycle s = s.cycle) ∧
  (∀ (x : Operand) (s : State), (resolve x s).1 ≠ .cell (.reg .cycle)) ∧
  (∀ (s t : State) (n : Word), step s = .next t →
    step { s with cycle := s.cycle + n } = .next { t with cycle := t.cycle + n })

/-- A step costs 0 to 5 cycles (R97). -/
def Obligations.StepCostsAtMostFiveCycles : Prop :=
  ∀ s t : State, step s = .next t → ∃ n, n ≤ 5 ∧ t.cycle = s.cycle + ofCount n

/-! ## Skipping -/

/-- `SkipNext` moves PC past one word and the extra words of its two fields, adds one cycle, and
changes nothing else, whatever the word is (R130). -/
def Obligations.SkipNextPassesOverOneInstruction : Prop := ∀ s : State, skipNext s = passOver s

/-- A skipped basic instruction or JSR is passed over whole; a skipped HLT or illegal word is cut as a
basic word (R131). -/
def Obligations.SkipCutsEveryWordAsBasic : Prop :=
  ∀ (i : Instr) (s : State), i.wellFormed = true → memRead s.pc s = encodeWord i →
    (∀ mk ∈ basic, ∀ a b, i = mk a b → (skipNext s).pc = s.pc + ofCount i.length) ∧
    (∀ a, i = .jsr a → (skipNext s).pc = s.pc + ofCount i.length) ∧
    (∀ c, i = .hlt c → (skipNext s).pc = s.pc + ofCount (1 + extraNum c)) ∧
    (∀ xop field, (i = .illegalExt02To03 xop field ∨ i = .illegalExt04To07 xop field ∨
        i = .illegalExt08To0F xop field ∨ i = .illegalExt10To1F xop field ∨
        i = .illegalExt20To3F xop field) →
      (skipNext s).pc = s.pc + ofCount (1 + extraNum xop + extraNum field)) ∧
    (skipNext s).status = s.status

/-! ## Sequences -/

/-- After a JSR, `SET PC, POP` executed anywhere returns: PC is the address after the JSR and SP is as
it was after the JSR's operand was resolved (R141, R143). -/
def Obligations.ReturnUndoesCall : Prop :=
  ∀ (a : Operand) (s t : State) (p : Word), s.mem.wf = true → exec (.jsr a) s = .next t →
    ∃ u, exec (.set .pc .pop) { t with pc := p } = .next u ∧
      u.pc = s.pc + ofCount (extraNum a.code) ∧ u.sp = s.sp + spMove a

/-- A value pushed is the value popped, and SP is back where it was (R74, R76). -/
def Obligations.PopGivesWhatWasPushed : Prop :=
  ∀ (r q : Reg) (s t : State) (p : Word), s.mem.wf = true →
    exec (.set .push (.reg r)) s = .next t →
    ∃ u, exec (.set (.reg q) .pop) { t with pc := p } = .next u ∧
      getReg q u = getReg r s ∧ u.sp = s.sp

/-- A word stored where the next instruction is fetched is the word that executes (R42). -/
def Obligations.NextFetchSeesAStore : Prop :=
  ∀ (a b : Operand) (s s₁ s₂ t : State) (addr : Word), s.mem.wf = true → s.status = .running →
    (resolve a s).1 = .cell (.mem addr) → s₁ = (resolve a s).2 → s₂ = (resolve b s₁).2 →
    exec (.set a b) s = .next t → t.pc = addr →
    step t = exec (decodeWord (readRef (resolve b s₁).1 s₂)) { t with pc := addr + 1 }

/-! ## The host -/

/-- `mount` of an image that fits, in any state: every register 0 but SP = 0xFFFF, memory the image
and then zero, status Running (R26). -/
def Obligations.MountGivesTheResetState : Prop :=
  ∀ (image : List Word) (s : State), image.length ≤ 65536 →
    ∃ t, mount image s = .next t ∧ (∀ q, getReg q t = 0) ∧ t.pc = 0 ∧ t.sp = 0xFFFF ∧ t.o = 0 ∧
      t.cycle = 0 ∧ t.status = .running ∧
      (∀ addr : Word, memRead addr t = image[addr.toNat]?.getD 0) ∧
      (image = [] → t = State.reset)

/-- `mount` of an image longer than memory has no resulting state (R148); that the model answers it
with a fault is log entry 4. -/
def Obligations.MountRefusesAnOversizeImage : Prop :=
  ∀ (image : List Word) (s : State), 65536 < image.length → mount image s = .fault .boundsError

/-- After `mount` the first step executes the image's first word, at address 0 (R161). -/
def Obligations.ExecutionBeginsAtTheFirstWord : Prop :=
  ∀ (w : Word) (ws : List Word) (s : State), (w :: ws).length ≤ 65536 →
    ∃ t, mount (w :: ws) s = .next t ∧ step t = exec (decodeWord w) { t with pc := 1 }

/-- A run of at most `n` steps that stops when the core does is `n` calls of `step` (R99, R100);
the bound is the model's (log entry 11). -/
def Obligations.RunIsRepeatedStep : Prop :=
  ∀ (n : Nat) (s : State), run n s = core.run n s

/-- A run that ends in Halted stopped at a HLT word, one before the final PC (R140, R166). -/
def Obligations.AHaltedRunStoppedAtAHltWord : Prop :=
  ∀ (n : Nat) (s t : State), s.status = .running → run n s = .next t → t.status = .halted →
    (memRead (t.pc - 1) t).toNat % 1024 = 0

/-- Only `mount` changes a core that has halted or faulted (R24, R99, R146). -/
def Obligations.OnlyMountLeavesAStoppedCore : Prop :=
  ∀ (op : HostOp) (s t : State), s.status ≠ .running → hostOp op s = .next t →
    (∃ image, op = .mount image) ∨ t = s

/-- Every step keeps the invariant that a halted core stands one past a HLT word (R140, R166), from
every state that meets it, reached by a run or not. -/
def Obligations.EveryStepKeepsHaltedOnePastAHltWord : Prop :=
  ∀ s t : State, s.HaltedOnePastHlt → step s = .next t → t.HaltedOnePastHlt

/-- The reset state meets it (R26). -/
def Obligations.ResetMeetsHaltedOnePastAHltWord : Prop := State.reset.HaltedOnePastHlt

end
end

