-- ==== Sys2Proof/Laws/Decode.lean ====
section
/-! SUPPORT. Decoding and encoding undo each other, field by field and operand by operand. -/

namespace Sys2Proof

/-! ## The fields as numbers (R7 slices) -/

theorem opField_toNat (w : Word) : (opField w).toNat = w.toNat % 16 := by
  simp [opField]

theorem aField_toNat (w : Word) : (aField w).toNat = w.toNat / 16 % 64 := by
  simp [aField, Nat.shiftRight_eq_div_pow]

theorem bField_toNat (w : Word) : (bField w).toNat = w.toNat / 1024 := by
  have := w.isLt
  simp [bField, Nat.shiftRight_eq_div_pow]
  omega

theorem wordOfFields_toNat (hi mid : Code) (lo : BitVec 4) :
    (wordOfFields hi mid lo).toNat = hi.toNat * 1024 + mid.toNat * 16 + lo.toNat := by
  have h1 := hi.isLt
  have h2 := mid.isLt
  have h3 := lo.isLt
  simp only [wordOfFields, BitVec.toNat_ofNat]
  omega

/-! ## Cutting a built word, building from a cut word -/

theorem opField_wordOfFields (hi mid : Code) (lo : BitVec 4) :
    opField (wordOfFields hi mid lo) = lo := by
  have := lo.isLt
  apply BitVec.eq_of_toNat_eq
  rw [opField_toNat, wordOfFields_toNat]
  omega

theorem aField_wordOfFields (hi mid : Code) (lo : BitVec 4) :
    aField (wordOfFields hi mid lo) = mid := by
  have := lo.isLt
  have := mid.isLt
  apply BitVec.eq_of_toNat_eq
  rw [aField_toNat, wordOfFields_toNat]
  omega

theorem bField_wordOfFields (hi mid : Code) (lo : BitVec 4) :
    bField (wordOfFields hi mid lo) = hi := by
  have := lo.isLt
  have := mid.isLt
  apply BitVec.eq_of_toNat_eq
  rw [bField_toNat, wordOfFields_toNat]
  omega

theorem wordOfFields_fields (w : Word) : wordOfFields (bField w) (aField w) (opField w) = w := by
  apply BitVec.eq_of_toNat_eq
  rw [wordOfFields_toNat, bField_toNat, aField_toNat, opField_toNat]
  omega

/-! ## Operand codes -/

theorem Operand.ofCode_code (x : Operand) : Operand.ofCode x.code = x := by
  cases x with
  | lit v => revert v; decide
  | reg r => cases r <;> decide
  | regInd r => cases r <;> decide
  | regIdx r => cases r <;> decide
  | _ => decide

theorem Operand.code_ofCode (c : Code) : (Operand.ofCode c).code = c := by
  revert c; decide

/-! ## First words -/

theorem decodeWord_wordOfFields_zero (field xop : Code) :
    decodeWord (wordOfFields field xop 0) = decodeExtended xop field := by
  simp [decodeWord, opField_wordOfFields, aField_wordOfFields, bField_wordOfFields]

end Sys2Proof
end

