-- ==== Sys2Proof/Laws/State.lean ====
section
/-! SUPPORT. One lemma per field per update of the state, so that no proof unfolds a record update. -/

namespace Sys2Proof.Machine

variable (s : State)

/-! ### setReg -/

@[simp] theorem pc_setReg (r : Reg) (v : Word) : (setReg r v s).pc = s.pc := by cases r <;> rfl
@[simp] theorem sp_setReg (r : Reg) (v : Word) : (setReg r v s).sp = s.sp := by cases r <;> rfl
@[simp] theorem o_setReg (r : Reg) (v : Word) : (setReg r v s).o = s.o := by cases r <;> rfl
@[simp] theorem cycle_setReg (r : Reg) (v : Word) : (setReg r v s).cycle = s.cycle := by cases r <;> rfl
@[simp] theorem mem_setReg (r : Reg) (v : Word) : (setReg r v s).mem = s.mem := by cases r <;> rfl
@[simp] theorem status_setReg (r : Reg) (v : Word) : (setReg r v s).status = s.status := by cases r <;> rfl
@[simp] theorem memRead_setReg (p : Word) (r : Reg) (v : Word) : memRead p (setReg r v s) = memRead p s := by
  cases r <;> rfl

/-! ### setPc -/

@[simp] theorem regs_setPc (v : Word) : (setPc v s).regs = s.regs := rfl
@[simp] theorem pc_setPc (v : Word) : (setPc v s).pc = v := rfl
@[simp] theorem sp_setPc (v : Word) : (setPc v s).sp = s.sp := rfl
@[simp] theorem o_setPc (v : Word) : (setPc v s).o = s.o := rfl
@[simp] theorem cycle_setPc (v : Word) : (setPc v s).cycle = s.cycle := rfl
@[simp] theorem mem_setPc (v : Word) : (setPc v s).mem = s.mem := rfl
@[simp] theorem status_setPc (v : Word) : (setPc v s).status = s.status := rfl
@[simp] theorem getReg_setPc (q : Reg) (v : Word) : getReg q (setPc v s) = getReg q s := rfl
@[simp] theorem memRead_setPc (p : Word) (v : Word) : memRead p (setPc v s) = memRead p s := rfl

/-! ### setSp -/

@[simp] theorem regs_setSp (v : Word) : (setSp v s).regs = s.regs := rfl
@[simp] theorem pc_setSp (v : Word) : (setSp v s).pc = s.pc := rfl
@[simp] theorem sp_setSp (v : Word) : (setSp v s).sp = v := rfl
@[simp] theorem o_setSp (v : Word) : (setSp v s).o = s.o := rfl
@[simp] theorem cycle_setSp (v : Word) : (setSp v s).cycle = s.cycle := rfl
@[simp] theorem mem_setSp (v : Word) : (setSp v s).mem = s.mem := rfl
@[simp] theorem status_setSp (v : Word) : (setSp v s).status = s.status := rfl
@[simp] theorem getReg_setSp (q : Reg) (v : Word) : getReg q (setSp v s) = getReg q s := rfl
@[simp] theorem memRead_setSp (p : Word) (v : Word) : memRead p (setSp v s) = memRead p s := rfl

/-! ### setO -/

@[simp] theorem regs_setO (v : Word) : (setO v s).regs = s.regs := rfl
@[simp] theorem pc_setO (v : Word) : (setO v s).pc = s.pc := rfl
@[simp] theorem sp_setO (v : Word) : (setO v s).sp = s.sp := rfl
@[simp] theorem o_setO (v : Word) : (setO v s).o = v := rfl
@[simp] theorem cycle_setO (v : Word) : (setO v s).cycle = s.cycle := rfl
@[simp] theorem mem_setO (v : Word) : (setO v s).mem = s.mem := rfl
@[simp] theorem status_setO (v : Word) : (setO v s).status = s.status := rfl
@[simp] theorem getReg_setO (q : Reg) (v : Word) : getReg q (setO v s) = getReg q s := rfl
@[simp] theorem memRead_setO (p : Word) (v : Word) : memRead p (setO v s) = memRead p s := rfl

/-! ### setCycle -/

@[simp] theorem regs_setCycle (v : Word) : (setCycle v s).regs = s.regs := rfl
@[simp] theorem pc_setCycle (v : Word) : (setCycle v s).pc = s.pc := rfl
@[simp] theorem sp_setCycle (v : Word) : (setCycle v s).sp = s.sp := rfl
@[simp] theorem o_setCycle (v : Word) : (setCycle v s).o = s.o := rfl
@[simp] theorem cycle_setCycle (v : Word) : (setCycle v s).cycle = v := rfl
@[simp] theorem mem_setCycle (v : Word) : (setCycle v s).mem = s.mem := rfl
@[simp] theorem status_setCycle (v : Word) : (setCycle v s).status = s.status := rfl
@[simp] theorem getReg_setCycle (q : Reg) (v : Word) : getReg q (setCycle v s) = getReg q s := rfl
@[simp] theorem memRead_setCycle (p : Word) (v : Word) : memRead p (setCycle v s) = memRead p s := rfl

/-! ### memWrite -/

@[simp] theorem regs_memWrite (addr v : Word) : (memWrite addr v s).regs = s.regs := rfl
@[simp] theorem pc_memWrite (addr v : Word) : (memWrite addr v s).pc = s.pc := rfl
@[simp] theorem sp_memWrite (addr v : Word) : (memWrite addr v s).sp = s.sp := rfl
@[simp] theorem o_memWrite (addr v : Word) : (memWrite addr v s).o = s.o := rfl
@[simp] theorem cycle_memWrite (addr v : Word) : (memWrite addr v s).cycle = s.cycle := rfl
@[simp] theorem mem_memWrite (addr v : Word) : (memWrite addr v s).mem = s.mem.write addr.toNat v := rfl
@[simp] theorem status_memWrite (addr v : Word) : (memWrite addr v s).status = s.status := rfl
@[simp] theorem getReg_memWrite (q : Reg) (addr v : Word) : getReg q (memWrite addr v s) = getReg q s := rfl

/-! ### raise -/

@[simp] theorem regs_raise (k : FaultKind) : (raise k s).regs = s.regs := rfl
@[simp] theorem pc_raise (k : FaultKind) : (raise k s).pc = s.pc := rfl
@[simp] theorem sp_raise (k : FaultKind) : (raise k s).sp = s.sp := rfl
@[simp] theorem o_raise (k : FaultKind) : (raise k s).o = s.o := rfl
@[simp] theorem cycle_raise (k : FaultKind) : (raise k s).cycle = s.cycle := rfl
@[simp] theorem mem_raise (k : FaultKind) : (raise k s).mem = s.mem := rfl
@[simp] theorem status_raise (k : FaultKind) : (raise k s).status = .faulted k := rfl
@[simp] theorem getReg_raise (q : Reg) (k : FaultKind) : getReg q (raise k s) = getReg q s := rfl
@[simp] theorem memRead_raise (p : Word) (k : FaultKind) : memRead p (raise k s) = memRead p s := rfl

/-! ### halt -/

@[simp] theorem regs_halt : (halt s).regs = s.regs := rfl
@[simp] theorem pc_halt : (halt s).pc = s.pc := rfl
@[simp] theorem sp_halt : (halt s).sp = s.sp := rfl
@[simp] theorem o_halt : (halt s).o = s.o := rfl
@[simp] theorem cycle_halt : (halt s).cycle = s.cycle := rfl
@[simp] theorem mem_halt : (halt s).mem = s.mem := rfl
@[simp] theorem status_halt : (halt s).status = .halted := rfl
@[simp] theorem getReg_halt (q : Reg) : getReg q (halt s) = getReg q s := rfl
@[simp] theorem memRead_halt (p : Word) : memRead p (halt s) = memRead p s := rfl

/-! ### addCycles -/

@[simp] theorem regs_addCycles (n : Nat) : (addCycles n s).regs = s.regs := rfl
@[simp] theorem pc_addCycles (n : Nat) : (addCycles n s).pc = s.pc := rfl
@[simp] theorem sp_addCycles (n : Nat) : (addCycles n s).sp = s.sp := rfl
@[simp] theorem o_addCycles (n : Nat) : (addCycles n s).o = s.o := rfl
@[simp] theorem cycle_addCycles (n : Nat) : (addCycles n s).cycle = s.cycle + BitVec.ofNat 16 n := rfl
@[simp] theorem mem_addCycles (n : Nat) : (addCycles n s).mem = s.mem := rfl
@[simp] theorem status_addCycles (n : Nat) : (addCycles n s).status = s.status := rfl
@[simp] theorem getReg_addCycles (q : Reg) (n : Nat) : getReg q (addCycles n s) = getReg q s := rfl
@[simp] theorem memRead_addCycles (p : Word) (n : Nat) : memRead p (addCycles n s) = memRead p s := rfl

/-! ### Reading a general register after writing one -/

@[simp] theorem getReg_setReg_self (r : Reg) (v : Word) : getReg r (setReg r v s) = v := by
  cases r <;> rfl

theorem getReg_setReg_of_ne {q r : Reg} (h : q ≠ r) (v : Word) :
    getReg q (setReg r v s) = getReg q s := by
  cases q <;> cases r <;> first | rfl | exact absurd rfl h

/-- Two states are equal when every field a program or the host can tell apart is equal. -/
theorem State.ext_fields {s t : State} (hr : ∀ q, getReg q s = getReg q t) (hpc : s.pc = t.pc)
    (hsp : s.sp = t.sp) (ho : s.o = t.o) (hc : s.cycle = t.cycle) (hm : s.mem = t.mem)
    (hst : s.status = t.status) : s = t := by
  obtain ⟨⟨_, _, _, _, _, _, _, _⟩, _, _, _, _, _, _⟩ := s
  obtain ⟨⟨_, _, _, _, _, _, _, _⟩, _, _, _, _, _, _⟩ := t
  have ha := hr .a
  have hb := hr .b
  have hc' := hr .c
  have hx := hr .x
  have hy := hr .y
  have hz := hr .z
  have hi := hr .i
  have hj := hr .j
  simp only [getReg] at ha hb hc' hx hy hz hi hj
  simp_all

end Sys2Proof.Machine
end

