-- ==== Sys2Proof/Laws/Memory.lean ====
section
/-! SUPPORT. The laws of the memory: every operation keeps the canonical form, a read after a write to
the same address gives the value written, and a write leaves every other address alone. -/

namespace Sys2Proof.Machine

/-! ## The canonical form -/

theorem Memory.wfFrom_mono {lo lo' : Nat} (h : lo' ≤ lo) {m : Memory} (hm : wfFrom lo m = true) :
    wfFrom lo' m = true := by
  cases m with
  | nil => rfl
  | cons c rest =>
    obtain ⟨k, v⟩ := c
    simp only [wfFrom, Bool.and_eq_true, decide_eq_true_eq] at hm ⊢
    exact ⟨⟨⟨h.trans hm.1.1.1, hm.1.1.2⟩, hm.1.2⟩, hm.2⟩

theorem Memory.cons_wfFrom {lo addr : Nat} {v : Word} {m : Memory} (hlo : lo ≤ addr)
    (ha : addr < memoryWords) (hm : wfFrom (addr + 1) m = true) : wfFrom lo (cons addr v m) = true := by
  unfold cons
  split
  · exact wfFrom_mono (by omega) hm
  · simp_all [wfFrom]

theorem Memory.write_wfFrom {lo addr : Nat} (v : Word) {m : Memory} (hlo : lo ≤ addr)
    (ha : addr < memoryWords) (hm : wfFrom lo m = true) : wfFrom lo (write m addr v) = true := by
  induction m generalizing lo with
  | nil => exact cons_wfFrom hlo ha rfl
  | cons c rest ih =>
    obtain ⟨k, u⟩ := c
    have hm' := hm
    simp only [wfFrom, Bool.and_eq_true, decide_eq_true_eq] at hm'
    obtain ⟨⟨⟨h1, h2⟩, h3⟩, h4⟩ := hm'
    unfold write
    split
    · rename_i hlt
      exact cons_wfFrom hlo ha (by simp only [wfFrom, Bool.and_eq_true, decide_eq_true_eq]; exact ⟨⟨⟨hlt, h2⟩, h3⟩, h4⟩)
    · split
      · rename_i heq
        subst heq
        exact cons_wfFrom hlo ha h4
      · simp only [wfFrom, Bool.and_eq_true, decide_eq_true_eq]
        exact ⟨⟨⟨h1, h2⟩, h3⟩, ih (by omega) h4⟩

/-- Writing keeps the canonical form. -/
theorem Memory.write_wf {m : Memory} {addr : Nat} (v : Word) (ha : addr < memoryWords)
    (hm : m.wf = true) : (m.write addr v).wf = true :=
  write_wfFrom v (Nat.zero_le _) ha hm

/-- `MemWrite` keeps the canonical form. -/
theorem memWrite_wf (addr v : Word) {s : State} (h : s.mem.wf = true) :
    (memWrite addr v s).mem.wf = true :=
  Memory.write_wf v addr.isLt h

theorem reset_mem_wf : State.reset.mem.wf = true := rfl

/-! ## Reading after writing -/

theorem Memory.read_of_wfFrom {lo addr : Nat} (h : addr < lo) {m : Memory} (hm : wfFrom lo m = true) :
    read m addr = Memory.unlisted := by
  induction m generalizing lo with
  | nil => rfl
  | cons c rest ih =>
    obtain ⟨k, v⟩ := c
    simp only [wfFrom, Bool.and_eq_true, decide_eq_true_eq] at hm
    have hne : k ≠ addr := by omega
    rw [read, if_neg hne]
    exact ih (by omega) hm.2

theorem Memory.read_cons_self {addr : Nat} {v : Word} {m : Memory} (hm : wfFrom (addr + 1) m = true) :
    read (cons addr v m) addr = v := by
  unfold cons
  split
  · rename_i h
    rw [h, read_of_wfFrom (Nat.lt_succ_self _) hm]
  · simp [read]

theorem Memory.read_cons_of_ne {addr addr' : Nat} (h : addr' ≠ addr) (v : Word) (m : Memory) :
    read (cons addr v m) addr' = read m addr' := by
  unfold cons
  split
  · rfl
  · rw [read, if_neg h.symm]

theorem Memory.read_write_of_ne {addr addr' : Nat} (h : addr' ≠ addr) (v : Word) (m : Memory) :
    read (write m addr v) addr' = read m addr' := by
  induction m with
  | nil => exact read_cons_of_ne h v []
  | cons c rest ih =>
    obtain ⟨k, u⟩ := c
    unfold write
    split
    · exact read_cons_of_ne h v _
    · split
      · rename_i heq
        subst heq
        rw [read_cons_of_ne h, read, if_neg h.symm]
      · rw [read, read, ih]

theorem Memory.read_write_self {lo addr : Nat} (v : Word) {m : Memory} (hm : wfFrom lo m = true) :
    read (write m addr v) addr = v := by
  induction m generalizing lo with
  | nil => exact read_cons_self rfl
  | cons c rest ih =>
    obtain ⟨k, u⟩ := c
    have hm' := hm
    simp only [wfFrom, Bool.and_eq_true, decide_eq_true_eq] at hm'
    obtain ⟨⟨⟨h1, h2⟩, h3⟩, h4⟩ := hm'
    unfold write
    split
    · rename_i hlt
      exact read_cons_self (by simp only [wfFrom, Bool.and_eq_true, decide_eq_true_eq]; exact ⟨⟨⟨hlt, h2⟩, h3⟩, h4⟩)
    · split
      · rename_i heq
        subst heq
        exact read_cons_self h4
      · rename_i h5
        rw [read, if_neg (Ne.symm h5)]
        exact ih h4

/-- A write leaves every other address alone, in every state. -/
theorem memRead_memWrite_of_ne {p addr : Word} (h : p ≠ addr) (v : Word) (s : State) :
    memRead p (memWrite addr v s) = memRead p s :=
  Memory.read_write_of_ne (fun e => h (BitVec.eq_of_toNat_eq e)) v s.mem

/-- A read after a write to the same address gives the value written, in a canonical memory. -/
theorem memRead_memWrite_self (addr v : Word) {s : State} (h : s.mem.wf = true) :
    memRead addr (memWrite addr v s) = v :=
  Memory.read_write_self v h

end Sys2Proof.Machine
end

