-- ==== Sys2Proof/Laws/Ops.lean ====
section
/-! SUPPORT. One spec lemma per shared operation: everything it can do, so that later proofs cite the
lemma instead of unfolding the operation. -/

namespace Sys2Proof.Machine

/-! ## Resolving an operand -/

/-- Everything `resolve` can do to the state: move PC past the extra word, move SP, count the cycle. -/
theorem resolve_state (x : Operand) (s : State) :
    (resolve x s).2 = setPc (s.pc + BitVec.ofNat 16 x.extra)
      (setSp (s.sp + spMove x) (setCycle (s.cycle + BitVec.ofNat 16 x.extra) s)) := by
  cases x <;> simp only [resolve, extraWord, nextWord, Operand.extra, spMove, addCycles] <;>
    simp [setPc, setSp, setCycle, sub_eq_add_neg]

theorem resolve_regs (x : Operand) (s : State) : (resolve x s).2.regs = s.regs := by
  rw [resolve_state]; rfl

theorem resolve_getReg (x : Operand) (s : State) (q : Reg) :
    getReg q (resolve x s).2 = getReg q s := by
  rw [resolve_state]; rfl

theorem resolve_pc (x : Operand) (s : State) :
    (resolve x s).2.pc = s.pc + BitVec.ofNat 16 x.extra := by
  rw [resolve_state]; rfl

theorem resolve_sp (x : Operand) (s : State) : (resolve x s).2.sp = s.sp + spMove x := by
  rw [resolve_state]; rfl

theorem resolve_o (x : Operand) (s : State) : (resolve x s).2.o = s.o := by
  rw [resolve_state]; rfl

theorem resolve_cycle (x : Operand) (s : State) :
    (resolve x s).2.cycle = s.cycle + BitVec.ofNat 16 x.extra := by
  rw [resolve_state]; rfl

theorem resolve_mem (x : Operand) (s : State) : (resolve x s).2.mem = s.mem := by
  rw [resolve_state]; rfl

theorem resolve_memRead (x : Operand) (s : State) (p : Word) :
    memRead p (resolve x s).2 = memRead p s := by
  rw [resolve_state]; rfl

theorem resolve_status (x : Operand) (s : State) : (resolve x s).2.status = s.status := by
  rw [resolve_state]; rfl

theorem resolve_lit (v : BitVec 5) (s : State) : resolve (.lit v) s = (.lit v, s) := rfl

theorem resolve_cell {x : Operand} (h : isLiteral x = false) (s : State) :
    ∃ c, (resolve x s).1 = .cell c := by
  cases x <;> first | exact ⟨_, rfl⟩ | simp [isLiteral] at h

/-- A reference to a register is one the operand names: no side effect and no other register. -/
theorem resolve_reg_cases {x : Operand} {s : State} {n : RegName}
    (h : (resolve x s).1 = .cell (.reg n)) :
    (∃ r, x = .reg r ∧ n = .gp r) ∨ (x = .sp ∧ n = .sp) ∨ (x = .pc ∧ n = .pc) ∨ (x = .o ∧ n = .o) := by
  cases x <;> simp_all [resolve]

/-- The operand behind a reference to a general register is that register. -/
theorem resolve_reg_gp {x : Operand} {s : State} {q : Reg}
    (h : (resolve x s).1 = .cell (.reg (.gp q))) : x = .reg q := by
  rcases resolve_reg_cases h with ⟨r, h1, h2⟩ | ⟨h1, h2⟩ | ⟨h1, h2⟩ | ⟨h1, h2⟩ <;> cases h2
  exact h1

theorem resolve_reg_sp {x : Operand} {s : State} (h : (resolve x s).1 = .cell (.reg .sp)) :
    x = .sp := by
  rcases resolve_reg_cases h with ⟨r, h1, h2⟩ | ⟨h1, h2⟩ | ⟨h1, h2⟩ | ⟨h1, h2⟩ <;> cases h2
  exact h1

theorem resolve_reg_o {x : Operand} {s : State} (h : (resolve x s).1 = .cell (.reg .o)) :
    x = .o := by
  rcases resolve_reg_cases h with ⟨r, h1, h2⟩ | ⟨h1, h2⟩ | ⟨h1, h2⟩ | ⟨h1, h2⟩ <;> cases h2
  exact h1

/-! ## Writing through a reference -/

/-- Everything a write through a reference can do: one register, or one memory word. -/
theorem writeCell_getReg (c : CellRef) (v : Word) (s : State) (q : Reg) :
    getReg q (writeCell c v s) = if c = .reg (.gp q) then v else getReg q s := by
  cases c with
  | mem addr => simp [writeCell]
  | reg n =>
    cases n with
    | gp r =>
      by_cases h : r = q
      · subst h; simp [writeCell, writeReg]
      · simp [writeCell, writeReg, h, getReg_setReg_of_ne s (Ne.symm h)]
    | pc | sp | o | cycle => simp [writeCell, writeReg]

theorem writeCell_pc (c : CellRef) (v : Word) (s : State) :
    (writeCell c v s).pc = if c = .reg .pc then v else s.pc := by
  rcases c with (_ | _ | _ | _ | _) | _ <;> simp [writeCell, writeReg]

theorem writeCell_sp (c : CellRef) (v : Word) (s : State) :
    (writeCell c v s).sp = if c = .reg .sp then v else s.sp := by
  rcases c with (_ | _ | _ | _ | _) | _ <;> simp [writeCell, writeReg]

theorem writeCell_o (c : CellRef) (v : Word) (s : State) :
    (writeCell c v s).o = if c = .reg .o then v else s.o := by
  rcases c with (_ | _ | _ | _ | _) | _ <;> simp [writeCell, writeReg]

theorem writeCell_cycle (c : CellRef) (v : Word) (s : State) :
    (writeCell c v s).cycle = if c = .reg .cycle then v else s.cycle := by
  rcases c with (_ | _ | _ | _ | _) | _ <;> simp [writeCell, writeReg]

theorem writeCell_status (c : CellRef) (v : Word) (s : State) :
    (writeCell c v s).status = s.status := by
  rcases c with (_ | _ | _ | _ | _) | _ <;> simp [writeCell, writeReg]

theorem writeCell_memRead_of_ne {c : CellRef} {p : Word} (h : c ≠ .mem p) (v : Word) (s : State) :
    memRead p (writeCell c v s) = memRead p s := by
  rcases c with (_ | _ | _ | _ | _) | addr
  case mem => exact memRead_memWrite_of_ne (fun e => h (by rw [e])) v s
  all_goals simp [writeCell, writeReg]

theorem writeCell_wf (c : CellRef) (v : Word) {s : State} (h : s.mem.wf = true) :
    (writeCell c v s).mem.wf = true := by
  rcases c with (_ | _ | _ | _ | _) | addr
  case mem => exact memWrite_wf addr v h
  all_goals simpa [writeCell, writeReg] using h

/-! ## The common frame of the basic instructions -/

/-- A destination that is no literal has values to work on. -/
theorem reads_exists {a : Operand} (h : isLiteral a = false) (b : Operand) (s : State) :
    ∃ ra va vb s₂, Reads a b s ra va vb s₂ :=
  (resolve_cell h s).elim fun ra hra => ⟨ra, _, _, _, hra, rfl, rfl, rfl⟩

theorem execBasic_of_reads {a b : Operand} {s s₂ : State} {ra : CellRef} {va vb : Word}
    (h : Reads a b s ra va vb s₂) (cost : Nat) (f : Nat → Nat → Effect) :
    execBasic cost f a b s = .next (finishBasic cost (f va.toNat vb.toNat) ra s₂) := by
  obtain ⟨hra, rfl, rfl, rfl⟩ := h
  unfold execBasic
  split
  · simp_all
  · rename_i h
    simp_all

theorem execBasic_lit (cost : Nat) (f : Nat → Nat → Effect) (v : BitVec 5) (b : Operand) (s : State) :
    execBasic cost f (.lit v) b s = .next (raise .decodeError s) := rfl

/-- A basic instruction answers a next state, whatever its operands. -/
theorem execBasic_next (cost : Nat) (f : Nat → Nat → Effect) (a b : Operand) (s : State) :
    ∃ t, execBasic cost f a b s = .next t := by
  unfold execBasic
  split <;> exact ⟨_, rfl⟩

/-- Everything a basic instruction can do: it raises `DecodeError` on a literal destination, or
finishes with the values it read. -/
theorem execBasic_cases {cost : Nat} {f : Nat → Nat → Effect} {a b : Operand} {s t : State}
    (h : execBasic cost f a b s = .next t) :
    (∃ v, a = .lit v ∧ t = raise .decodeError s) ∨
      ∃ ra va vb s₂, Reads a b s ra va vb s₂ ∧
        t = finishBasic cost (f va.toNat vb.toNat) ra s₂ := by
  cases hl : isLiteral a with
  | true =>
    cases a <;> simp [isLiteral] at hl
    rw [execBasic_lit] at h
    exact .inl ⟨_, rfl, (Host.Outcome.next.inj h).symm⟩
  | false =>
    obtain ⟨ra, va, vb, s₂, hr⟩ := reads_exists hl b s
    rw [execBasic_of_reads hr] at h
    exact .inr ⟨ra, va, vb, s₂, hr, (Host.Outcome.next.inj h).symm⟩

/-- Values to work on mean a destination that is no literal. -/
theorem Reads.not_literal {a b : Operand} {s s₂ : State} {ra : CellRef} {va vb : Word}
    (h : Reads a b s ra va vb s₂) : isLiteral a = false := by
  cases a <;> first | rfl | (have := h.1; simp [resolve] at this)

/-- The state after both operands are resolved. -/
theorem Reads.state {a b : Operand} {s s₂ : State} {ra : CellRef} {va vb : Word}
    (h : Reads a b s ra va vb s₂) :
    s₂ = setPc (s.pc + BitVec.ofNat 16 a.extra + BitVec.ofNat 16 b.extra)
      (setSp (s.sp + spMove a + spMove b)
        (setCycle (s.cycle + BitVec.ofNat 16 a.extra + BitVec.ofNat 16 b.extra) s)) := by
  rw [h.2.1, resolve_state, resolve_state]; rfl

/-! ## Skipping -/

theorem skipNext_eq (s : State) :
    skipNext s = setCycle (s.cycle + 1)
      (setPc (s.pc + BitVec.ofNat 16 (1 + extraOfCode (aField (memRead s.pc s))
        + extraOfCode (bField (memRead s.pc s)))) s) := rfl

theorem trunc16_natCast (n : Nat) : trunc16 (n : Int) = BitVec.ofNat 16 n := by
  simp [trunc16]

theorem trunc16_toNat (w : Word) : trunc16 (w.toNat : Int) = w := by
  simp [trunc16]

end Sys2Proof.Machine
end

