-- ==== Sys2Proof/Laws/PerInstr.lean ====
section
/-! SUPPORT. Statements for all instructions, one lemma per constructor of `Instr`. -/

namespace Sys2Proof.Laws.RoundTrip

/-- Decoding the first word of a well-formed instruction gives the instruction back (R62). -/
def Statement (i : Instr) : Prop := i.wellFormed = true → decodeWord (encodeWord i) = i

/-- What every basic instruction's lemma rests on: the three fields are cut as they were put in. -/
theorem fields_encodeBasic (op : BitVec 4) (a b : Operand) :
    opField (encodeBasic op a b) = op ∧ Operand.ofCode (aField (encodeBasic op a b)) = a ∧
      Operand.ofCode (bField (encodeBasic op a b)) = b := by
  simp [encodeBasic, opField_wordOfFields, aField_wordOfFields, bField_wordOfFields,
    Operand.ofCode_code]

/-- What every extended instruction's lemma rests on. -/
theorem decode_encodeExtended (xop field : Code) :
    decodeWord (encodeExtended xop field) = decodeExtended xop field :=
  decodeWord_wordOfFields_zero field xop

theorem set (a b : Operand) : Statement (.set a b) := by
  intro _
  simp [encodeWord, decodeWord, fields_encodeBasic]

theorem add (a b : Operand) : Statement (.add a b) := by
  intro _
  simp [encodeWord, decodeWord, fields_encodeBasic]

theorem sub (a b : Operand) : Statement (.sub a b) := by
  intro _
  simp [encodeWord, decodeWord, fields_encodeBasic]

theorem mul (a b : Operand) : Statement (.mul a b) := by
  intro _
  simp [encodeWord, decodeWord, fields_encodeBasic]

theorem div (a b : Operand) : Statement (.div a b) := by
  intro _
  simp [encodeWord, decodeWord, fields_encodeBasic]

theorem mod (a b : Operand) : Statement (.mod a b) := by
  intro _
  simp [encodeWord, decodeWord, fields_encodeBasic]

theorem shl (a b : Operand) : Statement (.shl a b) := by
  intro _
  simp [encodeWord, decodeWord, fields_encodeBasic]

theorem shr (a b : Operand) : Statement (.shr a b) := by
  intro _
  simp [encodeWord, decodeWord, fields_encodeBasic]

theorem and (a b : Operand) : Statement (.and a b) := by
  intro _
  simp [encodeWord, decodeWord, fields_encodeBasic]

theorem or (a b : Operand) : Statement (.or a b) := by
  intro _
  simp [encodeWord, decodeWord, fields_encodeBasic]

theorem xor (a b : Operand) : Statement (.xor a b) := by
  intro _
  simp [encodeWord, decodeWord, fields_encodeBasic]

theorem ife (a b : Operand) : Statement (.ife a b) := by
  intro _
  simp [encodeWord, decodeWord, fields_encodeBasic]

theorem ifn (a b : Operand) : Statement (.ifn a b) := by
  intro _
  simp [encodeWord, decodeWord, fields_encodeBasic]

theorem ifg (a b : Operand) : Statement (.ifg a b) := by
  intro _
  simp [encodeWord, decodeWord, fields_encodeBasic]

theorem ifb (a b : Operand) : Statement (.ifb a b) := by
  intro _
  simp [encodeWord, decodeWord, fields_encodeBasic]

theorem hlt (ignored : Code) : Statement (.hlt ignored) := by
  intro _
  simp [encodeWord, decode_encodeExtended, decodeExtended]

theorem jsr (a : Operand) : Statement (.jsr a) := by
  intro _
  simp [encodeWord, decode_encodeExtended, decodeExtended, Operand.ofCode_code]

theorem illegalExt02To03 (xop field : Code) : Statement (.illegalExt02To03 xop field) := by
  intro h
  simp only [Instr.wellFormed, Bool.and_eq_true, decide_eq_true_eq] at h
  rw [encodeWord, decode_encodeExtended, decodeExtended]
  repeat' split
  all_goals first | rfl | bv_omega

theorem illegalExt04To07 (xop field : Code) : Statement (.illegalExt04To07 xop field) := by
  intro h
  simp only [Instr.wellFormed, Bool.and_eq_true, decide_eq_true_eq] at h
  rw [encodeWord, decode_encodeExtended, decodeExtended]
  repeat' split
  all_goals first | rfl | bv_omega

theorem illegalExt08To0F (xop field : Code) : Statement (.illegalExt08To0F xop field) := by
  intro h
  simp only [Instr.wellFormed, Bool.and_eq_true, decide_eq_true_eq] at h
  rw [encodeWord, decode_encodeExtended, decodeExtended]
  repeat' split
  all_goals first | rfl | bv_omega

theorem illegalExt10To1F (xop field : Code) : Statement (.illegalExt10To1F xop field) := by
  intro h
  simp only [Instr.wellFormed, Bool.and_eq_true, decide_eq_true_eq] at h
  rw [encodeWord, decode_encodeExtended, decodeExtended]
  repeat' split
  all_goals first | rfl | bv_omega

theorem illegalExt20To3F (xop field : Code) : Statement (.illegalExt20To3F xop field) := by
  intro h
  simp only [Instr.wellFormed, Bool.and_eq_true, decide_eq_true_eq] at h
  rw [encodeWord, decode_encodeExtended, decodeExtended]
  repeat' split
  all_goals first | rfl | bv_omega

end Sys2Proof.Laws.RoundTrip
end

