-- ==== Sys2Proof/Laws/Step.lean ====
section
/-! SUPPORT. The spec lemmas of `finishBasic`, `exec`, `step` and the host operations. -/

namespace Sys2Proof.Machine

/-! ## Finishing a basic instruction -/

theorem applySkip_regs (b : Bool) (s : State) : (applySkip b s).regs = s.regs := by
  cases b <;> rfl

theorem applySkip_getReg (b : Bool) (s : State) (q : Reg) :
    getReg q (applySkip b s) = getReg q s := by cases b <;> rfl

theorem applySkip_sp (b : Bool) (s : State) : (applySkip b s).sp = s.sp := by cases b <;> rfl

theorem applySkip_o (b : Bool) (s : State) : (applySkip b s).o = s.o := by cases b <;> rfl

theorem applySkip_mem (b : Bool) (s : State) : (applySkip b s).mem = s.mem := by cases b <;> rfl

theorem applySkip_memRead (b : Bool) (s : State) (p : Word) :
    memRead p (applySkip b s) = memRead p s := by cases b <;> rfl

theorem applySkip_status (b : Bool) (s : State) : (applySkip b s).status = s.status := by
  cases b <;> rfl

theorem applySkip_cycle (b : Bool) (s : State) :
    (applySkip b s).cycle = s.cycle + BitVec.ofNat 16 b.toNat := by
  cases b
  · simp [applySkip]
  · rfl

theorem applyResult_wf (result : Option Int) (ra : CellRef) {s : State} (h : s.mem.wf = true) :
    (applyResult result ra s).mem.wf = true := by
  cases result with
  | none => exact h
  | some v => exact writeCell_wf ra _ h

theorem applyResult_status (result : Option Int) (ra : CellRef) (s : State) :
    (applyResult result ra s).status = s.status := by
  cases result with
  | none => rfl
  | some v => exact writeCell_status ra _ s

theorem applyOvf_mem (ovf : Option Int) (s : State) : (applyOvf ovf s).mem = s.mem := by
  cases ovf <;> rfl

theorem applyOvf_status (ovf : Option Int) (s : State) : (applyOvf ovf s).status = s.status := by
  cases ovf <;> rfl

theorem finishBasic_wf (cost : Nat) (e : Effect) (ra : CellRef) {s : State} (h : s.mem.wf = true) :
    (finishBasic cost e ra s).mem.wf = true := by
  rw [finishBasic, applySkip_mem, mem_addCycles, applyOvf_mem]
  exact applyResult_wf _ _ h

theorem finishBasic_status (cost : Nat) (e : Effect) (ra : CellRef) (s : State) :
    (finishBasic cost e ra s).status = s.status := by
  rw [finishBasic, applySkip_status, status_addCycles, applyOvf_status, applyResult_status]

theorem applyOvf_getReg (ovf : Option Int) (s : State) (q : Reg) :
    getReg q (applyOvf ovf s) = getReg q s := by cases ovf <;> rfl

theorem applyOvf_sp (ovf : Option Int) (s : State) : (applyOvf ovf s).sp = s.sp := by
  cases ovf <;> rfl

theorem applyOvf_cycle (ovf : Option Int) (s : State) : (applyOvf ovf s).cycle = s.cycle := by
  cases ovf <;> rfl

theorem applyOvf_memRead (ovf : Option Int) (s : State) (p : Word) :
    memRead p (applyOvf ovf s) = memRead p s := by cases ovf <;> rfl

/-- Finishing changes a general register only as the destination of a result. -/
theorem finishBasic_getReg (cost : Nat) (e : Effect) (ra : CellRef) (s : State) (q : Reg) :
    getReg q (finishBasic cost e ra s) =
      if ra = .reg (.gp q) ∧ e.result ≠ none then trunc16 (e.result.getD 0) else getReg q s := by
  rw [finishBasic, applySkip_getReg, getReg_addCycles, applyOvf_getReg]
  cases h : e.result <;> simp [applyResult, writeCell_getReg]

/-- Finishing changes SP only as the destination of a result. -/
theorem finishBasic_sp (cost : Nat) (e : Effect) (ra : CellRef) (s : State) :
    (finishBasic cost e ra s).sp =
      if ra = .reg .sp ∧ e.result ≠ none then trunc16 (e.result.getD 0) else s.sp := by
  rw [finishBasic, applySkip_sp, sp_addCycles, applyOvf_sp]
  cases h : e.result <;> simp [applyResult, writeCell_sp]

/-- Finishing keeps O when the operation writes none and O is no destination. -/
theorem finishBasic_o (cost : Nat) {e : Effect} {ra : CellRef} (s : State) (h : e.ovf = none)
    (h2 : ra ≠ .reg .o ∨ e.result = none) : (finishBasic cost e ra s).o = s.o := by
  rw [finishBasic, applySkip_o, o_addCycles, h]
  cases h3 : e.result <;> simp_all [applyResult, writeCell_o, applyOvf]

/-- Finishing changes a memory word only as the destination of a result. -/
theorem finishBasic_memRead (cost : Nat) {e : Effect} {ra : CellRef} (s : State) {p : Word}
    (h : ra ≠ .mem p ∨ e.result = none) :
    memRead p (finishBasic cost e ra s) = memRead p s := by
  rw [finishBasic, applySkip_memRead, memRead_addCycles, applyOvf_memRead]
  cases h3 : e.result with
  | none => rfl
  | some v => exact writeCell_memRead_of_ne (h.resolve_right (by simp [h3])) _ s

/-- Finishing adds the cost, and one cycle for a skip. -/
theorem finishBasic_cycle (cost : Nat) (e : Effect) {ra : CellRef} (s : State)
    (h : ra ≠ .reg .cycle) :
    (finishBasic cost e ra s).cycle =
      s.cycle + BitVec.ofNat 16 cost + BitVec.ofNat 16 e.skip.toNat := by
  rw [finishBasic, applySkip_cycle, cycle_addCycles, applyOvf_cycle]
  cases h3 : e.result <;> simp [applyResult, writeCell_cycle, h]

/-- What a basic instruction keeps: the canonical form, and the status unless it raises
`DecodeError`. -/
theorem execBasic_keeps {cost : Nat} {f : Nat → Nat → Effect} {a b : Operand} {s t : State}
    (h : execBasic cost f a b s = .next t) :
    (s.mem.wf = true → t.mem.wf = true) ∧
      (t.status = s.status ∨ t.status = .faulted .decodeError) := by
  rcases execBasic_cases h with ⟨v, rfl, rfl⟩ | ⟨ra, va, vb, s₂, hr, rfl⟩
  · exact ⟨fun hw => hw, .inr rfl⟩
  · have hs := hr.state
    refine ⟨fun hw => finishBasic_wf _ _ _ ?_, .inl ?_⟩
    · rw [hs]; exact hw
    · rw [finishBasic_status, hs]; rfl

/-! ## The basic instructions over the common frame -/

section

variable (a b : Operand) (s : State)

theorem exec_set : exec (.set a b) s = execBasic 1 fSet a b s := rfl
theorem exec_add : exec (.add a b) s = execBasic 2 fAdd a b s := rfl
theorem exec_sub : exec (.sub a b) s = execBasic 2 fSub a b s := rfl
theorem exec_mul : exec (.mul a b) s = execBasic 2 fMul a b s := rfl
theorem exec_div : exec (.div a b) s = execBasic 3 fDiv a b s := rfl
theorem exec_mod : exec (.mod a b) s = execBasic 3 fMod a b s := rfl
theorem exec_shl : exec (.shl a b) s = execBasic 2 fShl a b s := rfl
theorem exec_shr : exec (.shr a b) s = execBasic 2 fShr a b s := rfl
theorem exec_and : exec (.and a b) s = execBasic 1 fAnd a b s := rfl
theorem exec_or : exec (.or a b) s = execBasic 1 fOr a b s := rfl
theorem exec_xor : exec (.xor a b) s = execBasic 1 fXor a b s := rfl
theorem exec_ife : exec (.ife a b) s = execBasic 2 fIfe a b s := rfl
theorem exec_ifn : exec (.ifn a b) s = execBasic 2 fIfn a b s := rfl
theorem exec_ifg : exec (.ifg a b) s = execBasic 2 fIfg a b s := rfl
theorem exec_ifb : exec (.ifb a b) s = execBasic 2 fIfb a b s := rfl

end

/-! ## Every instruction answers a next state -/

/-- Every instruction is a basic one over the common frame, HLT, JSR or an illegal word: the shape a
proof over all instructions splits on. -/
theorem exec_shape (i : Instr) (s : State) :
    (∃ cost f a b, exec i s = execBasic cost f a b s) ∨ exec i s = .next (halt s) ∨
      (∃ a, exec i s = execJsr a s) ∨ exec i s = .next (raise .illegalExtendedOpcode s) := by
  cases i with
  | hlt => exact .inr (.inl rfl)
  | jsr a => exact .inr (.inr (.inl ⟨a, rfl⟩))
  | illegalExt02To03 | illegalExt04To07 | illegalExt08To0F | illegalExt10To1F | illegalExt20To3F =>
    exact .inr (.inr (.inr rfl))
  | set | add | sub | mul | div | mod | shl | shr | and | or | xor | ife | ifn | ifg | ifb =>
    left
    simp only [exec_set, exec_add, exec_sub, exec_mul, exec_div, exec_mod, exec_shl, exec_shr,
      exec_and, exec_or, exec_xor, exec_ife, exec_ifn, exec_ifg, exec_ifb]
    exact ⟨_, _, _, _, rfl⟩

theorem exec_next (i : Instr) (s : State) : ∃ t, exec i s = .next t := by
  rcases exec_shape i s with ⟨cost, f, a, b, h⟩ | h | ⟨a, h⟩ | h
  · rw [h]; exact execBasic_next cost f a b s
  · exact ⟨_, h⟩
  · exact ⟨_, h⟩
  · exact ⟨_, h⟩

/-! ## One step -/

theorem step_of_running {s : State} (h : s.status = .running) :
    step s = exec (decodeWord (memRead s.pc s)) (setPc (s.pc + 1) s) := by
  simp [step, h, nextWord]

theorem step_of_not_running {s : State} (h : s.status ≠ .running) : step s = .next s := by
  unfold step
  split
  · exact absurd ‹_› h
  · rfl
  · rfl

/-! ## The host's operations -/

theorem imageFrom_wfFrom {lo : Nat} {image : List Word} (h : lo + image.length ≤ memoryWords) :
    Memory.wfFrom lo (imageFrom lo image) = true := by
  induction image generalizing lo with
  | nil => rfl
  | cons w ws ih =>
    simp only [List.length_cons] at h
    exact Memory.cons_wfFrom (Nat.le_refl _) (by omega) (ih (by omega))

theorem imageFrom_read {lo addr : Nat} (image : List Word) (h : lo ≤ addr)
    (hl : lo + image.length ≤ memoryWords) :
    Memory.read (imageFrom lo image) addr = image[addr - lo]?.getD 0 := by
  induction image generalizing lo with
  | nil => simp [imageFrom, Memory.read, Memory.unlisted]
  | cons w ws ih =>
    simp only [List.length_cons] at hl
    rw [imageFrom]
    by_cases he : addr = lo
    · subst he
      rw [Memory.read_cons_self (imageFrom_wfFrom (by omega))]
      simp
    · rw [Memory.read_cons_of_ne he, ih (by omega) (by omega)]
      have : addr - lo = (addr - (lo + 1)) + 1 := by omega
      rw [this, List.getElem?_cons_succ]

theorem mounted_wf {image : List Word} (h : image.length ≤ memoryWords) :
    (mounted image).mem.wf = true :=
  imageFrom_wfFrom (by omega)

theorem mounted_nil : mounted [] = State.reset := rfl

end Sys2Proof.Machine
end

