-- ==== Sys2Proof/Tests/Slice0.lean ====
section
/-! SUPPORT. The model's own tests, and for every statement with hypotheses a witness that meets them.

A test's expected values are the spec's: 95_test_vectors.md, the id in the test's comment, or a worked
example of the rule named there. -/

namespace Sys2Proof.Tests

open Sys2Proof.Machine Sys2Proof.Claims

/-! ## Helpers -/

/-- What a step leaves in the parts of the state that `f` picks. -/
def after {α : Type} (s : State) (f : State → α) : Option α :=
  match step s with
  | .next t => some (f t)
  | .fault _ => none
  | .refused _ => none

/-- The start of V-ALU and V-IF: an image, A and B as given, O = 0xBEEF. -/
def start (image : List Word) (a b : Word) : State :=
  { mounted image with regs := { State.reset.regs with a := a, b := b }, o := 0xBEEF }

/-- A mounted image with the stack pointer as given. -/
def withSp (image : List Word) (sp : Word) : State := { mounted image with sp := sp }

/-- A, O, PC and CYCLE, the columns of V-ALU. -/
def alu (t : State) : List Word := [t.regs.a, t.o, t.pc, t.cycle]

/-- PC, CYCLE and O, the columns of V-IF. -/
def cond (t : State) : List Word := [t.pc, t.cycle, t.o]

/-! ## WellFormed: an ill-formed term for each check is refused -/

theorem test_wellFormed_refuses_02To03 :
    (Instr.illegalExt02To03 0x01 0).wellFormed = false ∧
    (Instr.illegalExt02To03 0x04 0).wellFormed = false := by decide

theorem test_wellFormed_refuses_04To07 :
    (Instr.illegalExt04To07 0x03 0).wellFormed = false ∧
    (Instr.illegalExt04To07 0x08 0).wellFormed = false := by decide

theorem test_wellFormed_refuses_08To0F :
    (Instr.illegalExt08To0F 0x07 0).wellFormed = false ∧
    (Instr.illegalExt08To0F 0x10 0).wellFormed = false := by decide

theorem test_wellFormed_refuses_10To1F :
    (Instr.illegalExt10To1F 0x0F 0).wellFormed = false ∧
    (Instr.illegalExt10To1F 0x20 0).wellFormed = false := by decide

theorem test_wellFormed_refuses_20To3F :
    (Instr.illegalExt20To3F 0x1F 0).wellFormed = false := by decide

/-- Too many and too few extra words, and an ill-formed instruction. -/
theorem test_assembled_wellFormed_refuses :
    (Assembled.wellFormed ⟨.set (.reg .a) .nextWord, []⟩) = false ∧
    (Assembled.wellFormed ⟨.set (.reg .a) (.reg .b), [1]⟩) = false ∧
    (Assembled.wellFormed ⟨.hlt 0x1F, [1]⟩) = false ∧
    (Assembled.wellFormed ⟨.illegalExt02To03 0x3F 0, []⟩) = false := by decide

/-! ## Decoding: a word written out from 30_encoding.md for every constructor -/

theorem test_decode_set : decodeWord 0b000001_000000_0001 = .set (.reg .a) (.reg .b) := by decide
theorem test_decode_add : decodeWord 0b011000_011011_0010 = .add .sp .pop := by decide
theorem test_decode_sub : decodeWord 0b100001_011100_0011 = .sub .pc (.lit 1) := by decide
theorem test_decode_mul : decodeWord 0b011111_011110_0100 = .mul .absolute .nextWord := by decide
theorem test_decode_div : decodeWord 0b100010_000111_0101 = .div (.reg .j) (.lit 2) := by decide
theorem test_decode_mod : decodeWord 0b010101_001110_0110 = .mod (.regInd .i) (.regIdx .z) := by decide
theorem test_decode_shl : decodeWord 0b111111_010011_0111 = .shl (.regIdx .x) (.lit 31) := by decide
theorem test_decode_shr : decodeWord 0b100000_011001_1000 = .shr .peek (.lit 0) := by decide
theorem test_decode_and : decodeWord 0b011101_000100_1001 = .and (.reg .y) .o := by decide
theorem test_decode_or : decodeWord 0b001000_011101_1010 = .or .o (.regInd .a) := by decide
theorem test_decode_xor : decodeWord 0b001111_010111_1011 = .xor (.regIdx .j) (.regInd .j) := by decide
theorem test_decode_ife : decodeWord 0b100001_000000_1100 = .ife (.reg .a) (.lit 1) := by decide
theorem test_decode_ifn : decodeWord 0b011100_000010_1101 = .ifn (.reg .c) .pc := by decide
theorem test_decode_ifg : decodeWord 0b011011_011010_1110 = .ifg .push .sp := by decide
theorem test_decode_ifb : decodeWord 0b000110_100101_1111 = .ifb (.lit 5) (.reg .i) := by decide
theorem test_decode_hlt : decodeWord 0b101010_000000_0000 = .hlt 0b101010 := by decide
theorem test_decode_jsr : decodeWord 0b011010_000001_0000 = .jsr .push := by decide
theorem test_decode_02To03 : decodeWord 0b000000_000010_0000 = .illegalExt02To03 2 0 ∧
    decodeWord 0b000000_000011_0000 = .illegalExt02To03 3 0 := by decide
theorem test_decode_04To07 : decodeWord 0b011111_000100_0000 = .illegalExt04To07 4 0x1F ∧
    decodeWord 0b000000_000111_0000 = .illegalExt04To07 7 0 := by decide
theorem test_decode_08To0F : decodeWord 0b000000_001000_0000 = .illegalExt08To0F 8 0 ∧
    decodeWord 0b100000_001111_0000 = .illegalExt08To0F 0x0F 0x20 := by decide
theorem test_decode_10To1F : decodeWord 0b000000_010000_0000 = .illegalExt10To1F 0x10 0 ∧
    decodeWord 0b000000_011111_0000 = .illegalExt10To1F 0x1F 0 := by decide
theorem test_decode_20To3F : decodeWord 0b000000_100000_0000 = .illegalExt20To3F 0x20 0 ∧
    decodeWord 0b111111_111111_0000 = .illegalExt20To3F 0x3F 0x3F := by decide

/-- The words of P2 at 0x0000 and what follows them: extra words in the order of R56. -/
theorem test_decode_takes_extra_words :
    decode [0x7DE1, 0x1000, 0x1234, 0x7C10] =
      .ok (⟨.set .absolute .nextWord, [0x1000, 0x1234]⟩, [0x7C10]) := by decide

/-- A list of words that is too short is refused by name (R52). -/
theorem test_decode_refuses :
    decode [] = .error .noFirstWord ∧ decode [0x7DE1, 0x1000] = .error .missingExtraWord := by
  decide

/-- The host's numbering: the first word is the least significant. -/
theorem test_decodeTableWord :
    decodeTableWord 16 0x0402 = some (.add (.reg .a) (.reg .b)) ∧
    decodeTableWord 48 0x123410007DE1 = some (.set .absolute .nextWord) := by decide

/-- The placed word is the one the next step runs (V-OP14). -/
theorem test_withFetchWord :
    after (State.reset.withFetchWord 32 0x00307C01) (fun t => (t.regs.a, t.pc)) =
      some (0x0030, 2) := by decide

/-! ## The eleven writing instructions (V-ALU) -/

/-- V-ALU1. -/
theorem test_set : after (start [0x0401] 0x1234 0xABCD) alu = some [0xABCD, 0xBEEF, 1, 1] := by
  decide
/-- V-ORD2: the source SP is read after the destination PUSH moved it. -/
theorem test_set_push_sp :
    after (mounted [0x6DA1]) (fun t => (t.sp, memRead 0xFFFE t)) = some (0xFFFE, 0xFFFE) := by decide
/-- V-ALU5. -/
theorem test_add : after (start [0x0402] 0xFFFF 0xFFFF) alu = some [0xFFFE, 1, 1, 2] := by decide
/-- V-ORD8: the carry is what O keeps. -/
theorem test_add_to_o :
    after { mounted [0x85D2] with o := 0xFFFF } (fun t => (t.o, t.cycle)) = some (1, 2) := by decide
/-- V-ALU14. -/
theorem test_sub : after (start [0x0403] 0x0000 0xFFFF) alu = some [1, 0xFFFF, 1, 2] := by decide
/-- V-ORD7. -/
theorem test_sub_pc : after (mounted [0x85C3]) (fun t => (t.pc, t.o)) = some (0, 0) := by decide
/-- V-ALU22. -/
theorem test_mul : after (start [0x0404] 0x1234 0x5678) alu = some [0x0060, 0x0626, 1, 2] := by
  decide
/-- V-ALU31. -/
theorem test_div : after (start [0x0405] 0x8000 0x0003) alu = some [0x2AAA, 0xAAAA, 1, 3] := by
  decide
/-- V-ALU29. -/
theorem test_div_by_zero : after (start [0x0405] 5 0) alu = some [0, 0, 1, 3] := by decide
/-- V-ALU37. -/
theorem test_mod : after (start [0x0406] 0xFFFF 0x0100) alu = some [0x00FF, 0xBEEF, 1, 3] := by
  decide
/-- V-ALU35. -/
theorem test_mod_by_zero : after (start [0x0406] 7 0) alu = some [0, 0xBEEF, 1, 3] := by decide
/-- V-ALU42. -/
theorem test_shl : after (start [0x0407] 0x1234 4) alu = some [0x2340, 1, 1, 2] := by decide
/-- V-ALU48. -/
theorem test_shl_by_32 : after (start [0x0407] 0x1234 0x20) alu = some [0, 0, 1, 2] := by decide
/-- V-ALU52. -/
theorem test_shr : after (start [0x0408] 0x1234 4) alu = some [0x0123, 0x4000, 1, 2] := by decide
/-- V-ALU57. -/
theorem test_shr_by_31 : after (start [0x0408] 0xFFFF 0x1F) alu = some [0, 1, 1, 2] := by decide
/-- V-ALU61. -/
theorem test_and : after (start [0x0409] 0xF0F0 0x3C3C) alu = some [0x3030, 0xBEEF, 1, 1] := by
  decide
/-- V-ALU64. -/
theorem test_or : after (start [0x040A] 0xF0F0 0x3C3C) alu = some [0xFCFC, 0xBEEF, 1, 1] := by decide
/-- V-ALU67. -/
theorem test_xor : after (start [0x040B] 0xF0F0 0x3C3C) alu = some [0xCCCC, 0xBEEF, 1, 1] := by
  decide

/-- V-OVF: the other value of `OVF_OPERAND`, the reconstruction of 93 K2, for V-OVF2, 4, 7 and 11. -/
theorem test_ovf_mutated :
    ovfDiv .mutated 0x0064 7 = 0 ∧ ovfDiv .mutated 0xFFFF 0xFFFF = 1 ∧
    ovfShl .mutated 0x1234 4 = 2 ∧ ovfShr .mutated 0x1234 4 = 0x3000 := by decide

/-! ## Operands (V-OP) and wrapping (V-WRAP) -/

/-- V-OP4: the sum of register and extra word wraps. -/
theorem test_indexed_wraps :
    after (start [0x4401, 0x0002] 0 0xFFFF) (fun t => (t.regs.a, t.pc, t.cycle)) =
      some (2, 2, 2) := by decide
/-- V-OP6: a pop at 0xFFFF wraps SP. -/
theorem test_pop_wraps : after (mounted [0x6001]) (fun t => (t.regs.a, t.sp)) = some (0, 0) := by
  decide
/-- V-OP15: a next-word destination overwrites the instruction's own extra word. -/
theorem test_next_word_destination :
    after (start [0x01F1, 0x1234] 0x00AA 0) (fun t => (memRead 1 t, t.pc)) = some (0x00AA, 2) := by
  decide
/-- V-WRAP1: an instruction at 0xFFFF takes its extra word at 0x0000. -/
theorem test_pc_wraps :
    after { State.reset with pc := 0xFFFF, mem := [(0, 0x0030), (0xFFFF, 0x7C01)] }
      (fun t => (t.regs.a, t.pc)) = some (0x0030, 1) := by decide

/-! ## The conditionals (V-IF) and skipping (V-SKIP) -/

/-- V-IF1. -/
theorem test_ife_holds : after (start [0x040C] 5 5) cond = some [1, 2, 0xBEEF] := by decide
/-- V-SKIP1: three words are passed over. -/
theorem test_ife_skips :
    after (mounted [0x840C, 0x7DE1, 0x3000, 0xBEEF]) cond = some [4, 3, 0] := by decide
/-- V-IF5. -/
theorem test_ifn_holds : after (start [0x040D] 5 6) cond = some [1, 2, 0xBEEF] := by decide
/-- V-IF4. -/
theorem test_ifn_skips : after (start [0x040D, 0x8421] 5 5) cond = some [2, 3, 0xBEEF] := by decide
/-- V-IF9. -/
theorem test_ifg_holds : after (start [0x040E] 0x8000 0x7FFF) cond = some [1, 2, 0xBEEF] := by decide
/-- V-IF7. -/
theorem test_ifg_skips : after (start [0x040E, 0x8421] 5 5) cond = some [2, 3, 0xBEEF] := by decide
/-- V-IF13. -/
theorem test_ifb_holds : after (start [0x040F] 6 4) cond = some [1, 2, 0xBEEF] := by decide
/-- V-IF14. -/
theorem test_ifb_skips : after (start [0x040F, 0x8421] 6 1) cond = some [2, 3, 0xBEEF] := by decide
/-- V-SKIP6, V-SKIP7 and V-SKIP2: every word is cut as a basic word, nothing it says happens. -/
theorem test_skip_cuts_as_basic :
    after (mounted [0x840C, 0x01F0]) (fun t => (t.pc, t.status)) = some (3, .running) ∧
    after (mounted [0x840C, 0x7C00]) (fun t => (t.pc, t.status)) = some (3, .running) ∧
    after (mounted [0x840C, 0x01A1]) (fun t => (t.pc, t.sp)) = some (2, 0xFFFF) := by decide

/-! ## Extended instructions (V-EXT) and fatal errors (V-FLT) -/

/-- V-EXT1. -/
theorem test_jsr :
    after (mounted [0x7C10, 0x0010]) (fun t => [t.pc, t.sp, memRead 0xFFFE t, t.cycle]) =
      some [0x0010, 0xFFFE, 2, 3] := by decide
/-- V-EXT4: the target is read before the push overwrites it. -/
theorem test_jsr_pop :
    after { withSp [0x6010] 0xFFF0 with mem := [(0, 0x6010), (0xFFF0, 0x0040)] }
      (fun t => [t.pc, t.sp, memRead 0xFFF0 t]) = some [0x0040, 0xFFF0, 1] := by decide
/-- V-EXT10. -/
theorem test_hlt :
    after (mounted [0x7C00, 0x1234]) (fun t => (t.pc, t.cycle, t.status)) = some (1, 0, .halted) := by
  decide
/-- V-EXT11. -/
theorem test_hlt_stays :
    after { mounted [0x0000] with pc := 1, status := .halted } (fun t => (t.pc, t.status)) =
      some (1, .halted) := by decide
/-- V-EXT13. -/
theorem test_illegal_02To03 :
    after (mounted [0x7C20, 0x1234]) (fun t => (t.pc, t.cycle, t.status)) =
      some (1, 0, .faulted .illegalExtendedOpcode) := by decide
/-- R142, extended opcode 0x05. -/
theorem test_illegal_04To07 :
    after (mounted [0x0050]) (fun t => (t.pc, t.status)) =
      some (1, .faulted .illegalExtendedOpcode) := by decide
/-- R142, extended opcode 0x0F. -/
theorem test_illegal_08To0F :
    after (mounted [0x00F0]) (fun t => (t.pc, t.status)) =
      some (1, .faulted .illegalExtendedOpcode) := by decide
/-- R142, extended opcode 0x1F with a POP field: SP does not move. -/
theorem test_illegal_10To1F :
    after (mounted [0x61F0]) (fun t => (t.sp, t.status)) =
      some (0xFFFF, .faulted .illegalExtendedOpcode) := by decide
/-- V-EXT14. -/
theorem test_illegal_20To3F :
    after (mounted [0xFFF0]) (fun t => (t.pc, t.status)) =
      some (1, .faulted .illegalExtendedOpcode) := by decide
/-- V-FLT3: the source POP is not resolved. -/
theorem test_literal_destination :
    after (withSp [0x63F2] 0xFFF0) (fun t => (t.pc, t.sp, t.status)) =
      some (1, 0xFFF0, .faulted .decodeError) := by decide
/-- V-FLT4: the extra word of the source is not consumed. -/
theorem test_literal_destination_keeps_extra_word :
    after (mounted [0x7E11, 0x1234]) (fun t => (t.pc, t.cycle, t.status)) =
      some (1, 0, .faulted .decodeError) := by decide

/-- The other value of `ILLEGAL_EXT_POLICY`, with and without resolving the operand field (93 K3). -/
theorem test_illegal_ignored :
    illegalExtended (.ignore false) 0x18 State.reset = .next State.reset ∧
    illegalExtended (.ignore true) 0x18 State.reset = .next { State.reset with sp := 0 } :=
  ⟨rfl, rfl⟩

/-! ## Witnesses: for every statement with hypotheses, states and operands that meet them -/

/-- The state of a core that has halted. -/
def stopped : State := halt State.reset

theorem witness_EncodedInstructionsDecodeBack :
    (Assembled.wellFormed ⟨.set .absolute .nextWord, [0x1000, 0x1234]⟩) = true ∧
    (Assembled.wellFormed ⟨.hlt 0x3F, []⟩) = true ∧
    (Assembled.wellFormed ⟨.illegalExt02To03 0x02 0, []⟩) = true ∧
    (Assembled.wellFormed ⟨.illegalExt02To03 0x03 0, []⟩) = true ∧
    (Assembled.wellFormed ⟨.illegalExt04To07 0x04 0, []⟩) = true ∧
    (Assembled.wellFormed ⟨.illegalExt04To07 0x07 0, []⟩) = true ∧
    (Assembled.wellFormed ⟨.illegalExt08To0F 0x08 0, []⟩) = true ∧
    (Assembled.wellFormed ⟨.illegalExt08To0F 0x0F 0, []⟩) = true ∧
    (Assembled.wellFormed ⟨.illegalExt10To1F 0x10 0, []⟩) = true ∧
    (Assembled.wellFormed ⟨.illegalExt10To1F 0x1F 0, []⟩) = true ∧
    (Assembled.wellFormed ⟨.illegalExt20To3F 0x20 0, []⟩) = true ∧
    (Assembled.wellFormed ⟨.illegalExt20To3F 0x3F 0x3F, []⟩) = true := by decide

/-- Each clause at the ends of its range: 1 and 15 with their place in the list, HLT, JSR, and extended
opcodes 2 and 0x3F. -/
theorem witness_EveryWordSpellsByItsFields :
    opField 0x0001 ≠ 0 ∧ (opField 0x0001).toNat - 1 = 0 ∧ opField 0xFFFF ≠ 0 ∧
    (opField 0xFFFF).toNat - 1 = 14 ∧ byOpcode.length = 15 ∧ (opField 0xFC00 = 0 ∧ aField 0xFC00 = 0) ∧
    (opField 0xFC10 = 0 ∧ aField 0xFC10 = 1) ∧ (opField 0x0020 = 0 ∧ 2 ≤ (aField 0x0020).toNat) ∧
    (opField 0x03F0 = 0 ∧ 2 ≤ (aField 0x03F0).toNat) ∧ isIllegal (decodeWord 0x0020) = true ∧
    isIllegal (decodeWord 0x03F0) = true ∧ isIllegal (decodeWord 0x0010) = false := by decide

/-- The numbers of R52 at every boundary of their ranges. -/
theorem witness_LengthFollowsFromOperandCodes :
    Instr.set ∈ basic ∧ Instr.ifb ∈ basic ∧
    [0x0F, 0x10, 0x17, 0x18, 0x1D, 0x1E, 0x1F, 0x20, 0x3F].map extraNum =
      [0, 1, 1, 0, 0, 1, 1, 0, 0] := by
  refine ⟨?_, ?_, by decide⟩ <;> simp [basic, writing, oWriting, oKeeping, conditionals]

theorem witness_OperandCodesResolveByNumber :
    [Reg.a, .b, .c, .x, .y, .z, .i, .j][0]? = some .a ∧
    [Reg.a, .b, .c, .x, .y, .z, .i, .j][7]? = some .j ∧
    0x20 ≤ (0x20 : Code).toNat ∧ 0x20 ≤ (0x3F : Code).toNat := by decide

/-- What the boundary codes change: an extra word, POP, PEEK, PUSH. -/
theorem witness_ResolveSideEffects :
    ([0x10, 0x17, 0x18, 0x19, 0x1A, 0x1B, 0x1E, 0x1F, 0x20].map fun c : Code =>
      let t := (resolve (Operand.ofCode c) State.reset).2
      (t.pc, t.sp, t.cycle)) =
    [(1, 0xFFFF, 1), (1, 0xFFFF, 1), (0, 0, 0), (0, 0xFFFF, 0), (0, 0xFFFE, 0), (0, 0xFFFF, 0),
      (1, 0xFFFF, 1), (1, 0xFFFF, 1), (0, 0xFFFF, 0)] := by decide

theorem witness_FourFormsOfAddAndSetOnSpPcAndO : State.reset.mem.wf = true := rfl

theorem witness_EveryStepKeepsTheInvariant :
    State.reset.Inv ∧ ∃ t, step State.reset = .next t := ⟨⟨rfl, by decide⟩, _, rfl⟩

theorem witness_EveryHostOperationKeepsTheInvariant :
    State.reset.Inv ∧ (∃ t, hostOp (.mount [0x9401]) State.reset = .next t) ∧
    (∃ t, hostOp .step State.reset = .next t) ∧ (∃ t, hostOp (.run 2) State.reset = .next t) :=
  ⟨⟨rfl, by decide⟩, ⟨_, rfl⟩, ⟨_, rfl⟩, ⟨_, rfl⟩⟩

theorem witness_ReadGivesTheMostRecentWrite :
    (mounted [0x9401, 0, 7]).mem.wf = true := by decide

theorem witness_CanonicalMemoriesWithEqualReadsAreEqual :
    ∃ m m' : Memory, m.wf = true ∧ m'.wf = true ∧ ∀ addr, m.read addr = m'.read addr :=
  ⟨[(0, 0x9401), (0xFFFF, 1)], [(0, 0x9401), (0xFFFF, 1)], by decide, by decide, fun _ => rfl⟩

theorem witness_StepWhenNotRunningChangesNothing :
    stopped.status ≠ .running ∧ (raise .decodeError State.reset).status ≠ .running := by decide

theorem witness_StepRunsTheDecodedInstruction :
    (Instr.illegalExt20To3F 0x3F 0x3F).wellFormed = true ∧
    (mounted [0xFFF0]).status = .running ∧
    memRead (mounted [0xFFF0]).pc (mounted [0xFFF0]) =
      encodeWord (.illegalExt20To3F 0x3F 0x3F) := by decide

/-- One running state for each clause, at both ends of the clause's words. -/
theorem witness_StatusAfterAStepByTheFetchedWord :
    ([0x0000, 0xFC00].map fun w => after (mounted [w]) State.status) =
      [some .halted, some .halted] ∧
    ([0x0201, 0xFFFF].map fun w => after (mounted [w]) State.status) =
      [some (.faulted .decodeError), some (.faulted .decodeError)] ∧
    ([0x0020, 0xFFF0].map fun w => after (mounted [w]) State.status) =
      [some (.faulted .illegalExtendedOpcode), some (.faulted .illegalExtendedOpcode)] ∧
    ([0x0010, 0xFDFF].map fun w => after (mounted [w]) State.status) =
      [some .running, some .running] := by decide

theorem witness_FaultsArePrecise :
    (∃ t, step (mounted [0x0201]) = .next t ∧ t.status = .faulted .decodeError) ∧
    (∃ t, step (mounted [0x0020]) = .next t ∧ t.status = .faulted .illegalExtendedOpcode) :=
  ⟨⟨_, rfl, rfl⟩, ⟨_, rfl, rfl⟩⟩

theorem witness_LiteralDestinationRaisesDecodeError : Instr.set ∈ basic ∧ Instr.ifb ∈ basic := by
  simp [basic, writing, oWriting, oKeeping, conditionals]

/-- Every form of destination but a literal: the hypothesis of every `Writes` and `Tests`. -/
theorem witness_Writes_and_Tests :
    ([.reg .a, .reg .j, .regInd .a, .regInd .j, .regIdx .a, .regIdx .j, .pop, .peek, .push, .sp, .pc,
      .o, .absolute, .nextWord].map isLiteral).all (· == false) = true := by decide

/-- Both clauses of each conditional's statement: values for which the test holds, and fails, at the
places where they meet. -/
theorem witness_Tests_clauses :
    (∃ s₂, Reads (.reg .a) (.reg .b) (start [] 5 5) (.reg (.gp .a)) 5 5 s₂ ∧ (5 : Word) = 5) ∧
    (∃ s₂, Reads (.reg .a) (.reg .b) (start [] 5 6) (.reg (.gp .a)) 5 6 s₂ ∧ (5 : Word) ≠ 6) ∧
    (∃ s₂, Reads (.reg .a) (.reg .b) (start [] 0x8000 0x7FFF) (.reg (.gp .a)) 0x8000 0x7FFF s₂ ∧
      (0x8000 : Word).toNat > (0x7FFF : Word).toNat) ∧
    (∃ s₂, Reads (.reg .a) (.reg .b) (start [] 5 5) (.reg (.gp .a)) 5 5 s₂ ∧
      ¬ (5 : Word).toNat > (5 : Word).toNat) ∧
    (∃ s₂, Reads (.reg .a) (.reg .b) (start [] 0x8000 0x8000) (.reg (.gp .a)) 0x8000 0x8000 s₂ ∧
      ∃ k, (0x8000 : Word).getLsbD k = true ∧ (0x8000 : Word).getLsbD k = true) ∧
    (∃ s₂, Reads (.reg .a) (.reg .b) (start [] 6 0) (.reg (.gp .a)) 6 0 s₂ ∧
      ¬ ∃ k, (6 : Word).getLsbD k = true ∧ (0 : Word).getLsbD k = true) :=
  ⟨⟨_, ⟨rfl, rfl, rfl, rfl⟩, rfl⟩, ⟨_, ⟨rfl, rfl, rfl, rfl⟩, by decide⟩,
    ⟨_, ⟨rfl, rfl, rfl, rfl⟩, by decide⟩, ⟨_, ⟨rfl, rfl, rfl, rfl⟩, by decide⟩,
    ⟨_, ⟨rfl, rfl, rfl, rfl⟩, 15, by decide, by decide⟩,
    ⟨_, ⟨rfl, rfl, rfl, rfl⟩, fun ⟨_, _, h⟩ => by simp at h⟩⟩

theorem witness_JsrPushesAndJumps : State.reset.mem.wf = true ∧
    ∃ s₁, s₁ = (resolve .pop State.reset).2 := ⟨rfl, _, rfl⟩

theorem witness_HltStops :
    (mounted [0x0000]).status = .running ∧
    (memRead (mounted [0x0000]).pc (mounted [0x0000])).toNat % 1024 = 0 ∧
    (memRead (mounted [0xFC00]).pc (mounted [0xFC00])).toNat % 1024 = 0 := by decide

theorem witness_IllegalExtendedOpcodesFault :
    isIllegal (.illegalExt02To03 2 0) = true ∧ isIllegal (.illegalExt20To3F 0x3F 0x3F) = true ∧
    (mounted [0x0020]).status = .running ∧
    (memRead (mounted [0x0020]).pc (mounted [0x0020])).toNat % 16 = 0 ∧
    2 ≤ (memRead (mounted [0x0020]).pc (mounted [0x0020])).toNat / 16 % 64 ∧
    (memRead (mounted [0xFFF0]).pc (mounted [0xFFF0])).toNat % 16 = 0 ∧
    2 ≤ (memRead (mounted [0xFFF0]).pc (mounted [0xFFF0])).toNat / 16 % 64 := by decide

/-- A register destination, SP as the destination, and a stored one. -/
theorem witness_FrameOfInstructionsWritingO : Instr.add ∈ oWriting ∧
    (∃ t, exec (.add (.reg .a) .pop) State.reset = .next t) ∧
    (∃ t, exec (.add .sp (.lit 1)) State.reset = .next t) ∧
    (∃ t, exec (.add .push .nextWord) State.reset = .next t) :=
  ⟨by simp [oWriting], ⟨_, rfl⟩, ⟨_, rfl⟩, ⟨_, rfl⟩⟩

theorem witness_FrameOfInstructionsKeepingO : Instr.xor ∈ oKeeping ∧
    (∃ t, exec (.xor (.reg .a) .pop) State.reset = .next t) ∧
    (∃ t, exec (.xor .o (.lit 1)) State.reset = .next t) ∧
    (∃ t, exec (.xor .push .nextWord) State.reset = .next t) :=
  ⟨by simp [oKeeping], ⟨_, rfl⟩, ⟨_, rfl⟩, ⟨_, rfl⟩⟩

theorem witness_FrameOfConditionals : Instr.ifb ∈ conditionals ∧
    ∃ t, exec (.ifb .pop .push) State.reset = .next t :=
  ⟨by simp [conditionals], _, rfl⟩

theorem witness_GeneralRegistersChangeOnlyAsDestination :
    (mounted [0x9401]).status = .running ∧
    ∃ t, step (mounted [0x9401]) = .next t ∧ getReg .a t ≠ getReg .a (mounted [0x9401]) :=
  ⟨rfl, _, rfl, by decide⟩

/-- Both ways O can change: `ADD A, B` and `SET O, 5`. -/
theorem witness_OChangesOnlyByRule :
    (∃ t, step (start [0x0402] 1 2) = .next t ∧ t.o ≠ (start [0x0402] 1 2).o) ∧
    (∃ t, step (mounted [0x95D1]) = .next t ∧ t.o ≠ (mounted [0x95D1]).o) :=
  ⟨⟨_, rfl, by decide⟩, ⟨_, rfl, by decide⟩⟩

/-- The three ways SP can change: `SET A, POP`, `SET SP, 5` and `JSR A`. -/
theorem witness_SpChangesOnlyByRule :
    (∃ t, step (mounted [0x6001]) = .next t ∧ t.sp ≠ (mounted [0x6001]).sp) ∧
    (∃ t, step (mounted [0x95B1]) = .next t ∧ t.sp ≠ (mounted [0x95B1]).sp) ∧
    (∃ t, step (mounted [0x0010]) = .next t ∧ t.sp ≠ (mounted [0x0010]).sp) :=
  ⟨⟨_, rfl, by decide⟩, ⟨_, rfl, by decide⟩, ⟨_, rfl, by decide⟩⟩

/-- Both ways a memory word can change: `SET PUSH, 5` and `JSR A`. -/
theorem witness_MemoryChangesOnlyWhereStored :
    (∃ t, step (mounted [0x95A1]) = .next t ∧
      memRead 0xFFFE t ≠ memRead 0xFFFE (mounted [0x95A1])) ∧
    (∃ t, step (mounted [0x0010]) = .next t ∧
      memRead 0xFFFE t ≠ memRead 0xFFFE (mounted [0x0010])) :=
  ⟨⟨_, rfl, by decide⟩, ⟨_, rfl, by decide⟩⟩

theorem witness_NothingDependsOnCycle : ∃ t, step (mounted [0x7802, 0x1000]) = .next t := ⟨_, rfl⟩

/-- The cheapest step and the dearest one of R97: HLT, and `DIV [w+A], [w+B]`. -/
theorem witness_StepCostsAtMostFiveCycles :
    after (mounted [0x0000]) State.cycle = some 0 ∧
    after (mounted [0x4505, 0x1000, 0x2000]) State.cycle = some 5 := by decide

/-- A word of each clause, and for the illegal rows the boundaries of the extra-word codes. -/
theorem witness_SkipCutsEveryWordAsBasic :
    ([.set .absolute .nextWord, .jsr .nextWord, .hlt 0x00, .hlt 0x1F, .illegalExt02To03 0x02 0,
      .illegalExt08To0F 0x0F 0, .illegalExt10To1F 0x10 0, .illegalExt10To1F 0x17 0,
      .illegalExt10To1F 0x18 0, .illegalExt10To1F 0x1E 0, .illegalExt10To1F 0x1F 0x1F,
      .illegalExt20To3F 0x3F 0].map fun i : Instr =>
        let s := mounted [encodeWord i]
        (i.wellFormed, decide (memRead s.pc s = encodeWord i), (skipNext s).pc)) =
    [(true, true, 3), (true, true, 2), (true, true, 1), (true, true, 2), (true, true, 1),
      (true, true, 1), (true, true, 2), (true, true, 2), (true, true, 1), (true, true, 2),
      (true, true, 3), (true, true, 1)] := by decide

theorem witness_ReturnUndoesCall : State.reset.mem.wf = true ∧
    ∃ t, exec (.jsr .nextWord) State.reset = .next t := ⟨rfl, _, rfl⟩

theorem witness_PopGivesWhatWasPushed : State.reset.mem.wf = true ∧
    ∃ t, exec (.set .push (.reg .a)) State.reset = .next t := ⟨rfl, _, rfl⟩

/-- P7: the word stored at 0x0003 is the next one fetched. -/
theorem witness_NextFetchSeesAStore :
    let s := afterFetch (mounted [0x7DE1, 0x0003, 0x8401])
    s.mem.wf = true ∧ s.status = .running ∧ (resolve .absolute s).1 = .cell (.mem 0x0003) ∧
      ∃ t, exec (.set .absolute .nextWord) s = .next t ∧ t.pc = 0x0003 :=
  ⟨by decide, rfl, rfl, _, rfl, rfl⟩

/-- The longest image that fits, and the empty one. -/
theorem witness_MountGivesTheResetState :
    (List.replicate 65536 (0xFFFF : Word)).length ≤ 65536 ∧ ([] : List Word).length ≤ 65536 :=
  ⟨List.length_replicate.le, Nat.zero_le _⟩

/-- The shortest image that does not fit. -/
theorem witness_MountRefusesAnOversizeImage :
    65536 < (List.replicate 65537 (0xFFFF : Word)).length := by
  rw [List.length_replicate]; omega

theorem witness_ExecutionBeginsAtTheFirstWord :
    ((0x9401 : Word) :: List.replicate 65535 0).length ≤ 65536 ∧
    [(0x9401 : Word)].length ≤ 65536 := by
  refine ⟨?_, by decide⟩
  rw [List.length_cons, List.length_replicate]

theorem witness_AHaltedRunStoppedAtAHltWord :
    (mounted [0x9401]).status = .running ∧
    ∃ t, run 2 (mounted [0x9401]) = .next t ∧ t.status = .halted := ⟨rfl, _, rfl, rfl⟩

/-- A state that halts in the step, and a halted one, which keeps its place. -/
theorem witness_EveryStepKeepsHaltedOnePastAHltWord :
    ((mounted [0xFC00]).HaltedOnePastHlt ∧
      ∃ t, step (mounted [0xFC00]) = .next t ∧ t.status = .halted) ∧
    (halt { State.reset with pc := 1 }).HaltedOnePastHlt :=
  ⟨⟨fun h => (by cases h), _, rfl, rfl⟩, fun _ => rfl⟩

theorem witness_OnlyMountLeavesAStoppedCore :
    stopped.status ≠ .running ∧ (∃ t, hostOp (.mount []) stopped = .next t) ∧
    (∃ t, hostOp .step stopped = .next t) ∧ (∃ t, hostOp (.run 2) stopped = .next t) :=
  ⟨by decide, ⟨_, rfl⟩, ⟨_, rfl⟩, ⟨_, rfl⟩⟩

end Sys2Proof.Tests
end

/-! ## Family 00_scope.md: what the host's operations keep -/

namespace Sys2Proof.Machine

/-! ### The invariant through one step -/

theorem pushWord_wf (v : Word) {s : State} (h : s.mem.wf = true) :
    (pushWord v s).mem.wf = true :=
  memWrite_wf _ v h

/-- Everything JSR can do to what the invariant speaks of: one store, and no change of the status. -/
theorem execJsr_keeps {a : Operand} {s t : State} (h : execJsr a s = .next t) :
    (s.mem.wf = true → t.mem.wf = true) ∧ t.status = s.status := by
  cases h
  refine ⟨fun hw => pushWord_wf _ ?_, resolve_status a s⟩
  rw [resolve_mem]; exact hw

/-- Every instruction keeps the invariant: it stores canonically, and the only faults it raises are
`DecodeError` and `IllegalExtendedOpcode` (R151). -/
theorem exec_inv {i : Instr} {s t : State} (hs : s.Inv) (h : exec i s = .next t) : t.Inv := by
  obtain ⟨hwf, hst⟩ := hs
  rcases exec_shape i s with ⟨cost, f, a, b, hi⟩ | hi | ⟨a, hi⟩ | hi <;> rw [hi] at h
  case inl =>
    obtain ⟨hmem, hstatus | hstatus⟩ := execBasic_keeps h
    · exact ⟨hmem hwf, hstatus ▸ hst⟩
    · exact ⟨hmem hwf, by simp [hstatus]⟩
  case inr.inl =>
    cases h
    exact ⟨hwf, by simp⟩
  case inr.inr.inl =>
    obtain ⟨hmem, hstatus⟩ := execJsr_keeps h
    exact ⟨hmem hwf, hstatus ▸ hst⟩
  case inr.inr.inr =>
    cases h
    exact ⟨hwf, by simp⟩

/-- A step keeps the invariant, whether or not the core is running. -/
theorem step_inv {s t : State} (hs : s.Inv) (h : step s = .next t) : t.Inv := by
  by_cases hr : s.status = .running
  · rw [step_of_running hr] at h
    have hfetched : (setPc (s.pc + 1) s).Inv := hs
    exact exec_inv hfetched h
  · rw [step_of_not_running hr] at h
    cases h
    exact hs

/-! ### A run as a sequence of steps -/

theorem andThen_eq_next {r : Host.Outcome State Fault Refusal}
    {f : State → Host.Outcome State Fault Refusal} {t : State} (h : andThen r f = .next t) :
    ∃ u, r = .next u ∧ f u = .next t := by
  cases r with
  | next u => exact ⟨u, rfl, h⟩
  | fault e => cases h
  | refused e => cases h

theorem run_succ_of_running {s : State} (h : s.status = .running) (fuel : Nat) :
    run (fuel + 1) s = andThen (step s) (run fuel) := by
  simp only [run, h]

theorem run_of_not_running {s : State} (h : s.status ≠ .running) (fuel : Nat) :
    run fuel s = .next s := by
  cases fuel with
  | zero => rfl
  | succ fuel =>
    unfold run
    split
    · exact absurd ‹_› h
    · rfl
    · rfl

/-- What every step keeps, a run of any length keeps. -/
theorem run_keeps {P : State → Prop} (hstep : ∀ s t, P s → step s = .next t → P t) {fuel : Nat}
    {s t : State} (hs : P s) (h : run fuel s = .next t) : P t := by
  induction fuel generalizing s with
  | zero =>
    cases h
    exact hs
  | succ fuel ih =>
    by_cases hr : s.status = .running
    · rw [run_succ_of_running hr] at h
      obtain ⟨u, hu, hrest⟩ := andThen_eq_next h
      exact ih (hstep s u hs hu) hrest
    · rw [run_of_not_running hr] at h
      cases h
      exact hs

theorem run_inv {fuel : Nat} {s t : State} (hs : s.Inv) (h : run fuel s = .next t) : t.Inv :=
  run_keeps (fun _ _ => step_inv) hs h

/-! ### Mounting -/

/-- `mount` answers a next state for an image that fits, and then the one state the image decides
(R160, R148). -/
theorem mount_eq_next_iff {image : List Word} {s t : State} :
    mount image s = .next t ↔ image.length ≤ memoryWords ∧ t = mounted image := by
  unfold mount Config.maxImageWords memoryWords
  split
  case isTrue hlong =>
    exact ⟨fun h => (nomatch h), fun ⟨hfits, _⟩ => absurd hfits (Nat.not_le_of_lt hlong)⟩
  case isFalse hfits =>
    exact ⟨fun h => ⟨Nat.le_of_not_lt hfits, (Host.Outcome.next.inj h).symm⟩,
      fun ⟨_, ht⟩ => congrArg _ ht.symm⟩

/-- `mount` meets the invariant from any state: it forgets the state it is called in (R160). -/
theorem mount_inv {image : List Word} {s t : State} (h : mount image s = .next t) : t.Inv := by
  obtain ⟨hfits, rfl⟩ := mount_eq_next_iff.mp h
  exact ⟨mounted_wf hfits, by simp [mounted, State.reset]⟩

end Sys2Proof.Machine

namespace Sys2Proof.Proofs

open Sys2Proof.Machine Sys2Proof.Claims

/-- Settles O12, by the three host operations: a mounted image is canonical, a step keeps the
invariant by the shape of the instruction it executes, and a run by induction on its length. -/
theorem everyHostOperationKeepsTheInvariant : Obligations.EveryHostOperationKeepsTheInvariant := by
  unfold Obligations.EveryHostOperationKeepsTheInvariant
  intro op s t hs h
  cases op with
  | mount image => exact mount_inv (s := s) h
  | step => exact step_inv hs h
  | run fuel => exact run_inv hs h

end Sys2Proof.Proofs

/-! ## Family 10_state.md: who changes which part of the state -/

namespace Sys2Proof.Machine

open Sys2Proof.Claims

/-! ### A state with CYCLE ahead

What R23 says is a relation of two states that differ in CYCLE alone. Every operation a step is made of
keeps it: it commutes with moving CYCLE ahead. -/

/-- `s` with CYCLE `n` higher, modulo 65536 (R22). -/
def aheadBy (n : Word) (s : State) : State := setCycle (s.cycle + n) s

section

variable (n : Word) (s : State)

@[simp] theorem pc_aheadBy : (aheadBy n s).pc = s.pc := rfl
@[simp] theorem sp_aheadBy : (aheadBy n s).sp = s.sp := rfl
@[simp] theorem o_aheadBy : (aheadBy n s).o = s.o := rfl
@[simp] theorem status_aheadBy : (aheadBy n s).status = s.status := rfl
@[simp] theorem getReg_aheadBy (q : Reg) : getReg q (aheadBy n s) = getReg q s := rfl
@[simp] theorem memRead_aheadBy (p : Word) : memRead p (aheadBy n s) = memRead p s := rfl

@[simp] theorem setPc_aheadBy (v : Word) : setPc v (aheadBy n s) = aheadBy n (setPc v s) := rfl
@[simp] theorem setSp_aheadBy (v : Word) : setSp v (aheadBy n s) = aheadBy n (setSp v s) := rfl
@[simp] theorem setO_aheadBy (v : Word) : setO v (aheadBy n s) = aheadBy n (setO v s) := rfl
@[simp] theorem memWrite_aheadBy (p v : Word) :
    memWrite p v (aheadBy n s) = aheadBy n (memWrite p v s) := rfl
@[simp] theorem pushWord_aheadBy (v : Word) :
    pushWord v (aheadBy n s) = aheadBy n (pushWord v s) := rfl
@[simp] theorem raise_aheadBy (k : FaultKind) :
    raise k (aheadBy n s) = aheadBy n (raise k s) := rfl
@[simp] theorem halt_aheadBy : halt (aheadBy n s) = aheadBy n (halt s) := rfl

@[simp] theorem setReg_aheadBy (r : Reg) (v : Word) :
    setReg r v (aheadBy n s) = aheadBy n (setReg r v s) := by cases r <;> rfl

@[simp] theorem addCycles_aheadBy (k : Nat) :
    addCycles k (aheadBy n s) = aheadBy n (addCycles k s) := by
  simp only [addCycles, aheadBy, setCycle, add_right_comm]

@[simp] theorem skipNext_aheadBy : skipNext (aheadBy n s) = aheadBy n (skipNext s) := by
  simp [skipNext]

/-- What an operand resolves to does not depend on CYCLE, and its side effects only add to it. -/
@[simp] theorem resolve_aheadBy (x : Operand) :
    resolve x (aheadBy n s) = ((resolve x s).1, aheadBy n (resolve x s).2) := by
  cases x <;> simp [resolve, extraWord, nextWord]

/-- No operand code names CYCLE (R22, R23). -/
theorem resolve_ne_cycle (x : Operand) : (resolve x s).1 ≠ .cell (.reg .cycle) := by
  intro h
  rcases resolve_reg_cases h with ⟨_, _, hn⟩ | ⟨_, hn⟩ | ⟨_, hn⟩ | ⟨_, hn⟩ <;> cases hn

variable {n s}

theorem readRef_aheadBy {r : Ref} (h : r ≠ .cell (.reg .cycle)) :
    readRef r (aheadBy n s) = readRef r s := by
  rcases r with ((_ | _ | _ | _ | _) | _) | _
  case cell.reg.cycle => exact absurd rfl h
  all_goals rfl

theorem writeCell_aheadBy {c : CellRef} (h : c ≠ .reg .cycle) (v : Word) :
    writeCell c v (aheadBy n s) = aheadBy n (writeCell c v s) := by
  rcases c with (_ | _ | _ | _ | _) | _
  case reg.cycle => exact absurd rfl h
  all_goals simp [writeCell, writeReg]

theorem finishBasic_aheadBy (cost : Nat) (e : Effect) {ra : CellRef} (h : ra ≠ .reg .cycle) :
    finishBasic cost e ra (aheadBy n s) = aheadBy n (finishBasic cost e ra s) := by
  obtain ⟨result, ovf, skip⟩ := e
  have hresult : applyResult result ra (aheadBy n s) = aheadBy n (applyResult result ra s) := by
    cases result with
    | none => rfl
    | some v => exact writeCell_aheadBy h _
  cases ovf <;> cases skip <;> simp [finishBasic, hresult, applyOvf, applySkip]

/-- A basic instruction reads the same values with CYCLE ahead. -/
theorem Reads.aheadBy {a b : Operand} {s₂ : State} {ra : CellRef} {va vb : Word}
    (h : Reads a b s ra va vb s₂) (n : Word) :
    Reads a b (aheadBy n s) ra va vb (aheadBy n s₂) := by
  obtain ⟨hra, rfl, rfl, rfl⟩ := h
  have hcell := resolve_ne_cycle s a
  rw [hra] at hcell
  refine ⟨by simp [hra], by simp, ?_, ?_⟩
  · exact (readRef_aheadBy (r := .cell ra) hcell).symm
  · simpa using (readRef_aheadBy (resolve_ne_cycle _ b)).symm

theorem execBasic_aheadBy {cost : Nat} {f : Nat → Nat → Effect} {a b : Operand} {t : State}
    (h : execBasic cost f a b s = .next t) (n : Word) :
    execBasic cost f a b (aheadBy n s) = .next (aheadBy n t) := by
  rcases execBasic_cases h with ⟨v, rfl, rfl⟩ | ⟨ra, va, vb, s₂, hr, rfl⟩
  · rfl
  · have hra : ra ≠ .reg .cycle := fun e => resolve_ne_cycle s a (e ▸ hr.1)
    rw [execBasic_of_reads (hr.aheadBy n), finishBasic_aheadBy _ _ hra]

theorem execJsr_aheadBy {a : Operand} {t : State} (h : execJsr a s = .next t) (n : Word) :
    execJsr a (aheadBy n s) = .next (aheadBy n t) := by
  cases h
  simp [execJsr, readRef_aheadBy (resolve_ne_cycle s a)]

end

/-! ### The families of instructions

One lemma says which family an instruction belongs to, and one per family what its meaning is made of;
a proof over all instructions splits on the first and cites the others. -/

/-- Every instruction is a basic one, HLT, JSR or illegal (R57, R58, R59). -/
theorem instr_families (i : Instr) :
    (∃ mk ∈ basic, ∃ a b, i = mk a b) ∨ (∃ c, i = .hlt c) ∨ (∃ a, i = .jsr a) ∨
      isIllegal i = true := by
  cases i with
  | set a b | add a b | sub a b | mul a b | div a b | mod a b | shl a b | shr a b
  | and a b | or a b | xor a b | ife a b | ifn a b | ifg a b | ifb a b =>
    exact .inl ⟨_, by simp [basic, writing, oWriting, oKeeping, conditionals], a, b, rfl⟩
  | hlt c => exact .inr (.inl ⟨c, rfl⟩)
  | jsr a => exact .inr (.inr (.inl ⟨a, rfl⟩))
  | illegalExt02To03 | illegalExt04To07 | illegalExt08To0F | illegalExt10To1F | illegalExt20To3F =>
    exact .inr (.inr (.inr rfl))

section

variable {mk : Operand → Operand → Instr}

/-- The six that write O are basic instructions. -/
theorem exec_of_mem_oWriting (h : mk ∈ oWriting) :
    ∃ cost f, ∀ a b s, exec (mk a b) s = execBasic cost f a b s := by
  simp only [oWriting, List.mem_cons, List.not_mem_nil, or_false] at h
  rcases h with rfl | rfl | rfl | rfl | rfl | rfl <;> exact ⟨_, _, fun _ _ _ => rfl⟩

/-- The five that keep O are basic instructions with no value for O. -/
theorem exec_of_mem_oKeeping (h : mk ∈ oKeeping) :
    ∃ cost f, (∀ a b s, exec (mk a b) s = execBasic cost f a b s) ∧
      ∀ va vb, (f va vb).ovf = none := by
  simp only [oKeeping, List.mem_cons, List.not_mem_nil, or_false] at h
  rcases h with rfl | rfl | rfl | rfl | rfl <;>
    exact ⟨_, _, fun _ _ _ => rfl, fun _ _ => rfl⟩

/-- The conditionals are basic instructions with no result and no value for O. -/
theorem exec_of_mem_conditionals (h : mk ∈ conditionals) :
    ∃ cost f, (∀ a b s, exec (mk a b) s = execBasic cost f a b s) ∧
      (∀ va vb, (f va vb).result = none) ∧ ∀ va vb, (f va vb).ovf = none := by
  simp only [conditionals, List.mem_cons, List.not_mem_nil, or_false] at h
  rcases h with rfl | rfl | rfl | rfl <;>
    exact ⟨_, _, fun _ _ _ => rfl, fun _ _ => rfl, fun _ _ => rfl⟩

theorem mem_writing_iff : mk ∈ writing ↔ mk ∈ oWriting ∨ mk ∈ oKeeping := List.mem_append

theorem mem_basic_iff : mk ∈ basic ↔ mk ∈ writing ∨ mk ∈ conditionals := List.mem_append

/-- The fifteen are basic instructions; one that is not of the writing ones has no result. -/
theorem exec_of_mem_basic (h : mk ∈ basic) :
    ∃ cost f, (∀ a b s, exec (mk a b) s = execBasic cost f a b s) ∧
      (mk ∈ writing ∨ ∀ va vb, (f va vb).result = none) := by
  rw [mem_basic_iff, mem_writing_iff] at h
  rcases h with (hw | hk) | hc
  · obtain ⟨cost, f, hexec⟩ := exec_of_mem_oWriting hw
    exact ⟨cost, f, hexec, .inl (mem_writing_iff.mpr (.inl hw))⟩
  · obtain ⟨cost, f, hexec, _⟩ := exec_of_mem_oKeeping hk
    exact ⟨cost, f, hexec, .inl (mem_writing_iff.mpr (.inr hk))⟩
  · obtain ⟨cost, f, hexec, hresult, _⟩ := exec_of_mem_conditionals hc
    exact ⟨cost, f, hexec, .inr hresult⟩

end

theorem exec_of_isIllegal {i : Instr} (h : isIllegal i = true) (s : State) :
    exec i s = .next (raise .illegalExtendedOpcode s) := by
  cases i with
  | illegalExt02To03 | illegalExt04To07 | illegalExt08To0F | illegalExt10To1F | illegalExt20To3F =>
    rfl
  | _ => cases h

/-- Every instruction does the same with CYCLE ahead. -/
theorem exec_aheadBy {i : Instr} {s t : State} (h : exec i s = .next t) (n : Word) :
    exec i (aheadBy n s) = .next (aheadBy n t) := by
  rcases instr_families i with ⟨mk, hmk, a, b, rfl⟩ | ⟨c, rfl⟩ | ⟨a, rfl⟩ | hi
  · obtain ⟨cost, f, hexec, _⟩ := exec_of_mem_basic hmk
    rw [hexec] at h ⊢
    exact execBasic_aheadBy h n
  · cases h
    rfl
  · exact execJsr_aheadBy h n
  · rw [exec_of_isIllegal hi] at h ⊢
    cases h
    rfl

/-- A step does the same with CYCLE ahead (R23). -/
theorem step_aheadBy {s t : State} (h : step s = .next t) (n : Word) :
    step (aheadBy n s) = .next (aheadBy n t) := by
  by_cases hr : s.status = .running
  · rw [step_of_running hr] at h
    rw [step_of_running (s := aheadBy n s) hr]
    exact exec_aheadBy h n
  · rw [step_of_not_running hr] at h
    cases h
    exact step_of_not_running (s := aheadBy n s) hr

/-! ### The frame of a basic instruction

What a part of the state is afterwards when the instruction does not write it: it is not the
destination, or there is no result. -/

section

variable {cost : Nat} {f : Nat → Nat → Effect} {a b : Operand} {s t : State}

theorem execBasic_getReg_of_not_written {q : Reg} (h : execBasic cost f a b s = .next t)
    (hq : a ≠ .reg q ∨ ∀ va vb, (f va vb).result = none) : getReg q t = getReg q s := by
  rcases execBasic_cases h with ⟨v, rfl, rfl⟩ | ⟨ra, va, vb, s₂, hr, rfl⟩
  · rfl
  · have hunwritten : ¬ (ra = .reg (.gp q) ∧ (f va.toNat vb.toNat).result ≠ none) := by
      rintro ⟨rfl, hresult⟩
      exact hq.elim (· (resolve_reg_gp hr.1)) fun hnone => hresult (hnone _ _)
    rw [finishBasic_getReg, if_neg hunwritten, hr.state]
    rfl

theorem execBasic_sp_of_not_written (hl : isLiteral a = false) (h : execBasic cost f a b s = .next t)
    (hsp : a ≠ .sp ∨ ∀ va vb, (f va vb).result = none) : t.sp = s.sp + spMove a + spMove b := by
  obtain ⟨ra, va, vb, s₂, hr⟩ := reads_exists hl b s
  rw [execBasic_of_reads hr] at h
  cases h
  have hunwritten : ¬ (ra = .reg .sp ∧ (f va.toNat vb.toNat).result ≠ none) := by
    rintro ⟨rfl, hresult⟩
    exact hsp.elim (· (resolve_reg_sp hr.1)) fun hnone => hresult (hnone _ _)
  rw [finishBasic_sp, if_neg hunwritten, hr.state]
  rfl

theorem execBasic_o_of_not_written (h : execBasic cost f a b s = .next t)
    (hovf : ∀ va vb, (f va vb).ovf = none)
    (ho : a ≠ .o ∨ ∀ va vb, (f va vb).result = none) : t.o = s.o := by
  rcases execBasic_cases h with ⟨v, rfl, rfl⟩ | ⟨ra, va, vb, s₂, hr, rfl⟩
  · rfl
  · have hunwritten : ra ≠ .reg .o ∨ (f va.toNat vb.toNat).result = none :=
      ho.imp (fun ha hra => ha (resolve_reg_o (hra ▸ hr.1))) (· _ _)
    rw [finishBasic_o _ _ (hovf _ _) hunwritten, hr.state]
    rfl

theorem execBasic_memRead_of_not_written {p : Word} (h : execBasic cost f a b s = .next t)
    (hp : (resolve a s).1 ≠ .cell (.mem p) ∨ ∀ va vb, (f va vb).result = none) :
    memRead p t = memRead p s := by
  rcases execBasic_cases h with ⟨v, rfl, rfl⟩ | ⟨ra, va, vb, s₂, hr, rfl⟩
  · rfl
  · have hunwritten : ra ≠ .mem p ∨ (f va.toNat vb.toNat).result = none :=
      hp.imp (fun ha hra => ha (hra ▸ hr.1)) (· _ _)
    rw [finishBasic_memRead _ _ hunwritten, hr.state]
    rfl

theorem execBasic_status (hl : isLiteral a = false) (h : execBasic cost f a b s = .next t) :
    t.status = s.status := by
  obtain ⟨ra, va, vb, s₂, hr⟩ := reads_exists hl b s
  rw [execBasic_of_reads hr] at h
  cases h
  rw [finishBasic_status, hr.state]
  rfl

/-- With a literal destination the status alone changes (R93, R152), so where another part of the state
changed, the destination is no literal. -/
theorem execBasic_not_literal_of_ne {α : Type} (part : State → α)
    (h : execBasic cost f a b s = .next t) (hraise : part (raise .decodeError s) = part s)
    (hne : part t ≠ part s) : isLiteral a = false := by
  rcases execBasic_cases h with ⟨v, -, rfl⟩ | ⟨ra, va, vb, s₂, hr, -⟩
  · exact absurd hraise hne
  · exact hr.not_literal

end

/-! ### What JSR leaves unchanged -/

theorem execJsr_getReg {a : Operand} {s t : State} (h : execJsr a s = .next t) (q : Reg) :
    getReg q t = getReg q s := by
  cases h
  exact resolve_getReg a s q

theorem execJsr_o {a : Operand} {s t : State} (h : execJsr a s = .next t) : t.o = s.o := by
  cases h
  exact resolve_o a s

/-! ### Which basic instruction changes a register, and what a step can do -/

theorem spMove_eq_zero {x : Operand} (hpop : x ≠ .pop) (hpush : x ≠ .push) : spMove x = 0 := by
  cases x with
  | pop => exact absurd rfl hpop
  | push => exact absurd rfl hpush
  | _ => rfl

/-- The two ways a basic instruction can move SP: a POP or PUSH operand, or SP as the destination of
its result (R16). -/
theorem basic_sp_change {mk : Operand → Operand → Instr} {a b : Operand} {s t : State}
    (hmk : mk ∈ basic) (h : exec (mk a b) s = .next t) (hne : t.sp ≠ s.sp) :
    (isLiteral a = false ∧ (a = .pop ∨ a = .push ∨ b = .pop ∨ b = .push)) ∨
      (mk ∈ writing ∧ a = .sp) := by
  obtain ⟨cost, f, hexec, hw⟩ := exec_of_mem_basic hmk
  rw [hexec] at h
  have hl : isLiteral a = false := execBasic_not_literal_of_ne State.sp h rfl hne
  by_cases hstack : a = .pop ∨ a = .push ∨ b = .pop ∨ b = .push
  · exact .inl ⟨hl, hstack⟩
  · obtain ⟨hapop, hapush, hbpop, hbpush⟩ : a ≠ .pop ∧ a ≠ .push ∧ b ≠ .pop ∧ b ≠ .push := by
      simpa only [not_or] using hstack
    have hmoved : t.sp ≠ s.sp + spMove a + spMove b := by
      simpa [spMove_eq_zero hapop hapush, spMove_eq_zero hbpop hbpush] using hne
    right
    by_contra hnot
    refine hmoved (execBasic_sp_of_not_written hl h ?_)
    exact hw.imp_left fun hw ha => hnot ⟨hw, ha⟩

/-- A basic instruction changes a general register only as the destination of its result (R13). -/
theorem basic_getReg_change {mk : Operand → Operand → Instr} {a b : Operand} {s t : State} {q : Reg}
    (hmk : mk ∈ basic) (h : exec (mk a b) s = .next t) (hne : getReg q t ≠ getReg q s) :
    mk ∈ writing ∧ a = .reg q := by
  obtain ⟨cost, f, hexec, hw⟩ := exec_of_mem_basic hmk
  rw [hexec] at h
  by_contra hnot
  refine hne (execBasic_getReg_of_not_written h ?_)
  exact hw.imp_left fun hw ha => hnot ⟨hw, ha⟩

/-- The two ways a basic instruction can change O: it is one of the six that write it, or O is the
destination of its result (R19, R21). -/
theorem basic_o_change {mk : Operand → Operand → Instr} {a b : Operand} {s t : State}
    (hmk : mk ∈ basic) (h : exec (mk a b) s = .next t) (hne : t.o ≠ s.o) :
    (mk ∈ oWriting ∧ isLiteral a = false) ∨ (mk ∈ oKeeping ∧ a = .o) := by
  rw [mem_basic_iff, mem_writing_iff] at hmk
  rcases hmk with (hw | hk) | hc
  · obtain ⟨cost, f, hexec⟩ := exec_of_mem_oWriting hw
    rw [hexec] at h
    exact .inl ⟨hw, execBasic_not_literal_of_ne State.o h rfl hne⟩
  · obtain ⟨cost, f, hexec, hovf⟩ := exec_of_mem_oKeeping hk
    rw [hexec] at h
    by_cases ha : a = .o
    · exact .inr ⟨hk, ha⟩
    · exact absurd (execBasic_o_of_not_written h hovf (.inl ha)) hne
  · obtain ⟨cost, f, hexec, hresult, hovf⟩ := exec_of_mem_conditionals hc
    rw [hexec] at h
    exact absurd (execBasic_o_of_not_written h hovf (.inr hresult)) hne

/-- Everything a step of a running core can do: a basic instruction or JSR in the state after the
fetch, or PC and the status change alone (R90, R91, R140, R142). -/
theorem step_cases {s t : State} (hr : s.status = .running) (h : step s = .next t) :
    (∃ mk ∈ basic, ∃ a b, fetched s = mk a b ∧ exec (mk a b) (afterFetch s) = .next t) ∨
      (∃ a, fetched s = .jsr a ∧ execJsr a (afterFetch s) = .next t) ∨
      ∃ status, t = { afterFetch s with status := status } := by
  have hexec : exec (fetched s) (afterFetch s) = .next t := (step_of_running hr).symm.trans h
  rcases instr_families (fetched s) with ⟨mk, hmk, a, b, hi⟩ | ⟨c, hi⟩ | ⟨a, hi⟩ | hi
  · exact .inl ⟨mk, hmk, a, b, hi, hi ▸ hexec⟩
  · rw [hi] at hexec
    exact .inr (.inr ⟨.halted, (Host.Outcome.next.inj hexec).symm⟩)
  · rw [hi] at hexec
    exact .inr (.inl ⟨a, hi, hexec⟩)
  · rw [exec_of_isIllegal hi] at hexec
    exact .inr (.inr ⟨.faulted .illegalExtendedOpcode, (Host.Outcome.next.inj hexec).symm⟩)

/-! ### Operand codes by number -/

/-- The place of a register in the list of R12 is its index. -/
theorem eq_index_of_getElem? {k : Nat} {r : Reg}
    (h : [Reg.a, .b, .c, .x, .y, .z, .i, .j][k]? = some r) : k = r.index.toNat := by
  obtain ⟨hk, rfl⟩ := List.getElem?_eq_some_iff.mp h
  simp only [List.length_cons, List.length_nil] at hk
  interval_cases k <;> rfl

theorem ofCode_reg (r : Reg) : Operand.ofCode (BitVec.ofNat 6 r.index.toNat) = .reg r := by
  cases r <;> decide

theorem ofCode_regInd (r : Reg) :
    Operand.ofCode (BitVec.ofNat 6 (0x08 + r.index.toNat)) = .regInd r := by cases r <;> decide

theorem ofCode_regIdx (r : Reg) :
    Operand.ofCode (BitVec.ofNat 6 (0x10 + r.index.toNat)) = .regIdx r := by cases r <;> decide

theorem ofCode_lit {c : Code} (h : 0x20 ≤ c.toNat) :
    ∃ v : BitVec 5, Operand.ofCode c = .lit v ∧ v.toNat = c.toNat - 0x20 := by
  have hlit : ∀ c : Code, 0x20 ≤ c.toNat → Operand.ofCode c = .lit (c.extractLsb' 0 5) := by decide
  refine ⟨_, hlit c h, ?_⟩
  simp only [BitVec.extractLsb'_toNat, Nat.shiftRight_zero]
  omega

/-- Code 0x10 + k names memory at the register plus the extra word, modulo 65536 (R73). -/
theorem resolve_regIdx (r : Reg) (s : State) :
    (resolve (.regIdx r) s).1 = .cell (.mem (getReg r s + memRead s.pc s)) := rfl

/-! ### Mounting -/

theorem mounted_memRead {image : List Word} (h : image.length ≤ memoryWords) (p : Word) :
    memRead p (mounted image) = image[p.toNat]?.getD 0 :=
  imageFrom_read image (Nat.zero_le _) (by omega)

end Sys2Proof.Machine

namespace Sys2Proof.Proofs

open Sys2Proof.Machine Sys2Proof.Claims

/-- Settles O46: every step commutes with moving CYCLE ahead, because no reference names CYCLE and
every operation a step is made of only adds to it. -/
theorem nothingDependsOnCycle : Obligations.NothingDependsOnCycle := by
  unfold Obligations.NothingDependsOnCycle
  exact ⟨fun _ => rfl, fun x s => resolve_ne_cycle s x, fun _ _ n h => step_aheadBy h n⟩

/-- Settles O7, by what each code decodes to: the registers by their index, the others one by one. -/
theorem operandCodesResolveByNumber : Obligations.OperandCodesResolveByNumber := by
  unfold Obligations.OperandCodesResolveByNumber
  intro s
  refine ⟨?_, rfl, rfl, rfl, rfl, rfl, rfl, rfl, rfl, ?_⟩
  · intro k r hk
    obtain rfl := eq_index_of_getElem? hk
    rw [ofCode_reg, ofCode_regInd, ofCode_regIdx]
    exact ⟨rfl, rfl, _, resolve_regIdx r s, BitVec.toNat_add _ _⟩
  · intro c hc
    obtain ⟨v, hcode, hv⟩ := ofCode_lit hc
    exact ⟨v, by rw [hcode, resolve_lit], hv⟩

/-- Settles O39, by the frame of a basic instruction. -/
theorem frameOfInstructionsWritingO : Obligations.FrameOfInstructionsWritingO := by
  unfold Obligations.FrameOfInstructionsWritingO
  intro mk hmk a b s t hl h
  obtain ⟨cost, f, hexec⟩ := exec_of_mem_oWriting hmk
  rw [hexec] at h
  exact ⟨fun q hq => execBasic_getReg_of_not_written h (.inl hq),
    fun hsp => execBasic_sp_of_not_written hl h (.inl hsp), execBasic_status hl h,
    fun p hp => execBasic_memRead_of_not_written h (.inl hp)⟩

/-- Settles O40, by the frame of a basic instruction that has no value for O. -/
theorem frameOfInstructionsKeepingO : Obligations.FrameOfInstructionsKeepingO := by
  unfold Obligations.FrameOfInstructionsKeepingO
  intro mk hmk a b s t hl h
  obtain ⟨cost, f, hexec, hovf⟩ := exec_of_mem_oKeeping hmk
  rw [hexec] at h
  exact ⟨fun q hq => execBasic_getReg_of_not_written h (.inl hq),
    fun hsp => execBasic_sp_of_not_written hl h (.inl hsp), execBasic_status hl h,
    fun ho => execBasic_o_of_not_written h hovf (.inl ho),
    fun p hp => execBasic_memRead_of_not_written h (.inl hp)⟩

/-- Settles O42: only a basic instruction with a result can change a general register, and only its
destination. -/
theorem generalRegistersChangeOnlyAsDestination :
    Obligations.GeneralRegistersChangeOnlyAsDestination := by
  unfold Obligations.GeneralRegistersChangeOnlyAsDestination
  intro s t q hr hstep hne
  rcases step_cases hr hstep with ⟨mk, hmk, a, b, hi, h⟩ | ⟨a, hi, h⟩ | ⟨status, rfl⟩
  · obtain ⟨hw, rfl⟩ := basic_getReg_change hmk h hne
    exact ⟨mk, hw, b, hi⟩
  · exact absurd (execJsr_getReg h q) hne
  · exact absurd rfl hne

/-- Settles O43: only a basic instruction can change O, by its value for O or by O as its
destination. -/
theorem oChangesOnlyByRule : Obligations.OChangesOnlyByRule := by
  unfold Obligations.OChangesOnlyByRule
  intro s t hr hstep hne
  rcases step_cases hr hstep with ⟨mk, hmk, a, b, hi, h⟩ | ⟨a, hi, h⟩ | ⟨status, rfl⟩
  · rcases basic_o_change hmk h hne with ⟨hw, hl⟩ | ⟨hk, rfl⟩
    · exact .inl ⟨mk, hw, a, b, hi, hl⟩
    · exact .inr ⟨mk, hk, b, hi⟩
  · exact absurd (execJsr_o h) hne
  · exact absurd rfl hne

/-- Settles O44: without a POP or PUSH operand a basic instruction leaves SP where it was, unless SP is
the destination of its result. -/
theorem spChangesOnlyByRule : Obligations.SpChangesOnlyByRule := by
  unfold Obligations.SpChangesOnlyByRule
  intro s t hr hstep hne
  rcases step_cases hr hstep with ⟨mk, hmk, a, b, hi, h⟩ | ⟨a, hi, h⟩ | ⟨status, rfl⟩
  · rcases basic_sp_change hmk h hne with hstack | ⟨hw, rfl⟩
    · exact .inl ⟨mk, hmk, a, b, hi, hstack⟩
    · exact .inr (.inl ⟨mk, hw, b, hi⟩)
  · exact .inr (.inr ⟨a, hi⟩)
  · exact absurd rfl hne

/-- Settles O53, by the mounted state: its registers are those of the reset state, its memory reads the
image and then zero. -/
theorem mountGivesTheResetState : Obligations.MountGivesTheResetState := by
  unfold Obligations.MountGivesTheResetState
  intro image s hfits
  refine ⟨mounted image, mount_eq_next_iff.mpr ⟨hfits, rfl⟩, ?_, rfl, rfl, rfl, rfl, rfl,
    mounted_memRead hfits, ?_⟩
  · intro q
    cases q <;> rfl
  · rintro rfl
    exact mounted_nil

/-- Settles O58, by the three host operations: a step and a run leave a stopped core as it is. -/
theorem onlyMountLeavesAStoppedCore : Obligations.OnlyMountLeavesAStoppedCore := by
  unfold Obligations.OnlyMountLeavesAStoppedCore
  intro op s t hstopped h
  cases op with
  | mount image => exact .inl ⟨image, rfl⟩
  | step => exact .inr (Host.Outcome.next.inj (h.symm.trans (step_of_not_running hstopped)))
  | run fuel => exact .inr (Host.Outcome.next.inj (h.symm.trans (run_of_not_running hstopped fuel)))

/-- Settles O11: no word is listed, and the status is Running. -/
theorem resetMeetsTheInvariant : Obligations.ResetMeetsTheInvariant := by
  unfold Obligations.ResetMeetsTheInvariant
  exact ⟨reset_mem_wf, RunStatus.noConfusion⟩

/-- Settles O60: the reset state is Running. -/
theorem resetMeetsHaltedOnePastAHltWord : Obligations.ResetMeetsHaltedOnePastAHltWord := by
  unfold Obligations.ResetMeetsHaltedOnePastAHltWord
  exact RunStatus.noConfusion

end Sys2Proof.Proofs

/-! ## Family 20_memory.md: the memory as data, and where a step stores -/

namespace Sys2Proof.Machine

open Sys2Proof.Claims

/-! ### The canonical form is decided by the reads -/

section

variable {lo lo' k k' : Nat} {v v' : Word} {m m' rest rest' : Memory}

theorem Memory.wfFrom_cons_iff :
    wfFrom lo ((k, v) :: rest) = true ↔
      lo ≤ k ∧ k < memoryWords ∧ v ≠ unlisted ∧ wfFrom (k + 1) rest = true := by
  simp [wfFrom, and_assoc]

theorem Memory.read_head : read ((k, v) :: rest) k = v := if_pos rfl

theorem Memory.read_tail {addr : Nat} (h : k ≠ addr) :
    read ((k, v) :: rest) addr = read rest addr := if_neg h

/-- Only the empty canonical memory reads everywhere as an unlisted address does. -/
theorem Memory.eq_nil_of_read_unlisted (hm : wfFrom lo m = true)
    (h : ∀ addr, read m addr = unlisted) : m = [] := by
  cases m with
  | nil => rfl
  | cons c rest =>
    obtain ⟨k, v⟩ := c
    obtain ⟨-, -, hv, -⟩ := wfFrom_cons_iff.mp hm
    exact absurd (read_head.symm.trans (h k)) hv

/-- The first listed address of a canonical memory is the least one that does not read as unlisted,
so of two canonical memories with the same reads neither lists an address before the other. -/
theorem Memory.head_le_of_read_eq (hm : wfFrom lo ((k, v) :: rest) = true)
    (hm' : wfFrom lo' ((k', v') :: rest') = true)
    (h : ∀ addr, read ((k, v) :: rest) addr = read ((k', v') :: rest') addr) : k' ≤ k := by
  obtain ⟨-, -, hv, -⟩ := wfFrom_cons_iff.mp hm
  obtain ⟨-, hk', hv', hrest'⟩ := wfFrom_cons_iff.mp hm'
  by_contra hlt
  have hfrom : wfFrom k' ((k', v') :: rest') = true :=
    wfFrom_cons_iff.mpr ⟨le_rfl, hk', hv', hrest'⟩
  have hunlisted : v = unlisted := calc
    v = read ((k, v) :: rest) k := read_head.symm
    _ = read ((k', v') :: rest') k := h k
    _ = unlisted := read_of_wfFrom (Nat.lt_of_not_le hlt) hfrom
  exact hv hunlisted

/-- Past a common first address, canonical memories with the same reads have tails with the same
reads. -/
theorem Memory.read_tail_eq_of_read_eq (hrest : wfFrom (k + 1) rest = true)
    (hrest' : wfFrom (k + 1) rest' = true)
    (h : ∀ addr, read ((k, v) :: rest) addr = read ((k, v') :: rest') addr) (addr : Nat) :
    read rest addr = read rest' addr := by
  by_cases hk : k = addr
  · have hbefore : addr < k + 1 := by omega
    rw [read_of_wfFrom hbefore hrest, read_of_wfFrom hbefore hrest']
  · simpa only [read_tail hk] using h addr

/-- Canonical memories with the same reads are the same list. -/
theorem Memory.eq_of_read_eq (hm : wfFrom lo m = true) (hm' : wfFrom lo' m' = true)
    (h : ∀ addr, read m addr = read m' addr) : m = m' := by
  induction m generalizing lo lo' m' with
  | nil => exact (eq_nil_of_read_unlisted hm' fun addr => (h addr).symm).symm
  | cons c rest ih =>
    cases m' with
    | nil => exact eq_nil_of_read_unlisted hm h
    | cons c' rest' =>
      obtain ⟨k, v⟩ := c
      obtain ⟨k', v'⟩ := c'
      obtain rfl : k = k' := le_antisymm (head_le_of_read_eq hm' hm fun addr => (h addr).symm)
        (head_le_of_read_eq hm hm' h)
      obtain rfl : v = v' := by simpa only [read_head] using h k
      obtain ⟨-, -, -, hrest⟩ := wfFrom_cons_iff.mp hm
      obtain ⟨-, -, -, hrest'⟩ := wfFrom_cons_iff.mp hm'
      rw [ih hrest hrest' (read_tail_eq_of_read_eq hrest hrest' h)]

end

/-! ### Where an instruction stores -/

theorem memRead_afterFetch (p : Word) (s : State) : memRead p (afterFetch s) = memRead p s := rfl

/-- A basic instruction changes a memory word only as the destination of its result (R31, R34). -/
theorem basic_memRead_change {mk : Operand → Operand → Instr} {a b : Operand} {s t : State}
    {p : Word} (hmk : mk ∈ basic) (h : exec (mk a b) s = .next t)
    (hne : memRead p t ≠ memRead p s) :
    mk ∈ writing ∧ (resolve a s).1 = .cell (.mem p) := by
  obtain ⟨cost, f, hexec, hw⟩ := exec_of_mem_basic hmk
  rw [hexec] at h
  by_contra hnot
  refine hne (execBasic_memRead_of_not_written h ?_)
  exact hw.imp_left fun hw ha => hnot ⟨hw, ha⟩

/-- JSR stores at its new top of stack and nowhere else (R141). -/
theorem execJsr_memRead_of_ne {a : Operand} {s t : State} {p : Word}
    (h : execJsr a s = .next t) (hp : p ≠ s.sp + spMove a - 1) : memRead p t = memRead p s := by
  cases h
  rw [← resolve_sp] at hp
  rw [memRead_addCycles, memRead_setPc, pushWord, memRead_memWrite_of_ne hp, memRead_setSp,
    resolve_memRead]

/-! ### The effect of SET -/

/-- SET writes the value it read to its destination and costs one cycle (R105). -/
theorem finishBasic_fSet (cost va : Nat) (vb : Word) (ra : CellRef) (s : State) :
    finishBasic cost (fSet va vb.toNat) ra s = addCycles cost (writeCell ra vb s) := by
  simp [finishBasic, fSet, applyResult, applyOvf, applySkip, trunc16_toNat]

theorem exec_set_of_reads {a b : Operand} {s s₂ : State} {ra : CellRef} {va vb : Word}
    (h : Reads a b s ra va vb s₂) :
    exec (.set a b) s = .next (addCycles 1 (writeCell ra vb s₂)) := by
  rw [exec_set, execBasic_of_reads h, finishBasic_fSet]

theorem Reads.mem_eq {a b : Operand} {s s₂ : State} {ra : CellRef} {va vb : Word}
    (h : Reads a b s ra va vb s₂) : s₂.mem = s.mem := by
  rw [h.state]; rfl

/-- What SET stores to a memory word is read there afterwards (R34, R105). -/
theorem exec_set_memRead {a b : Operand} {s s₂ t : State} {addr va vb : Word}
    (hr : Reads a b s (.mem addr) va vb s₂) (hwf : s.mem.wf = true)
    (h : exec (.set a b) s = .next t) : memRead addr t = vb := by
  obtain rfl : _ = t := Host.Outcome.next.inj ((exec_set_of_reads hr).symm.trans h)
  rw [memRead_addCycles, writeCell, memRead_memWrite_self]
  rw [hr.mem_eq, hwf]

end Sys2Proof.Machine

namespace Sys2Proof.Proofs

open Sys2Proof.Machine Sys2Proof.Claims

/-- Settles O10, by the shape of the instruction executed: each stores canonically, and none raises
`BoundsError`. -/
theorem everyStepKeepsTheInvariant : Obligations.EveryStepKeepsTheInvariant := by
  unfold Obligations.EveryStepKeepsTheInvariant
  exact fun _ _ => step_inv

/-- Settles O13, by the two laws of a read after a write: at the same address and at another. -/
theorem readGivesTheMostRecentWrite : Obligations.ReadGivesTheMostRecentWrite := by
  unfold Obligations.ReadGivesTheMostRecentWrite
  intro s addr v p hwf
  split
  case isTrue heq => rw [heq, memRead_memWrite_self addr v hwf]
  case isFalse hne => exact memRead_memWrite_of_ne hne v s

/-- Settles O14, by induction on the two lists: their first addresses are equal, then their first
words, then their tails read the same. -/
theorem canonicalMemoriesWithEqualReadsAreEqual :
    Obligations.CanonicalMemoriesWithEqualReadsAreEqual := by
  unfold Obligations.CanonicalMemoriesWithEqualReadsAreEqual
  exact fun _ _ => Memory.eq_of_read_eq

/-- Settles O45: a basic instruction stores only through its destination, JSR only at its new top of
stack, and nothing else stores. -/
theorem memoryChangesOnlyWhereStored : Obligations.MemoryChangesOnlyWhereStored := by
  unfold Obligations.MemoryChangesOnlyWhereStored
  intro s t p hr hstep hne
  rw [← memRead_afterFetch p s] at hne
  rcases step_cases hr hstep with ⟨mk, hmk, a, b, hi, h⟩ | ⟨a, hi, h⟩ | ⟨status, rfl⟩
  · obtain ⟨hw, hdest⟩ := basic_memRead_change hmk h hne
    exact .inl ⟨mk, hw, a, b, hi, hdest⟩
  · refine .inr ⟨a, hi, ?_⟩
    by_contra hp
    exact hne (execJsr_memRead_of_ne (s := afterFetch s) h hp)
  · exact absurd rfl hne

/-- Settles O52: SET leaves the core running, and the word at PC is then the one it stored. -/
theorem nextFetchSeesAStore : Obligations.NextFetchSeesAStore := by
  unfold Obligations.NextFetchSeesAStore
  rintro a b s _ _ t _ hwf hr hdest rfl rfl h rfl
  have hreads : Reads a b s (.mem t.pc) _ _ _ := ⟨hdest, rfl, rfl, rfl⟩
  have hrunning : t.status = .running := (execBasic_status hreads.not_literal h).trans hr
  rw [step_of_running hrunning, exec_set_memRead hreads hwf h]
  rfl

end Sys2Proof.Proofs

/-! ## Family 30_encoding.md: what a word spells, and that no bit of it is lost -/

namespace Sys2Proof

open Sys2Proof.Claims

/-! ### The basic instructions and their numbers -/

section

variable {mk : Operand → Operand → Instr} {n : Nat}

/-- The list by number and the lists by what the instructions write are of the same fifteen (R57). -/
theorem mem_byOpcode_iff : mk ∈ byOpcode ↔ mk ∈ basic := by
  simp only [byOpcode, basic, writing, oWriting, oKeeping, conditionals, List.mem_append,
    List.mem_cons, List.not_mem_nil, or_false]
  tauto

theorem mem_basic_of_byOpcode (h : byOpcode[n]? = some mk) : mk ∈ basic :=
  mem_byOpcode_iff.mp (List.mem_of_getElem? h)

/-- What the syntax alone says of a basic instruction: it has an encoding, it is not illegal, and its
extra words are those of its operands (R52, R59). -/
theorem basic_syntax (h : mk ∈ basic) (a b : Operand) :
    (mk a b).wellFormed = true ∧ isIllegal (mk a b) = false ∧
      (mk a b).extraWords = a.extra + b.extra := by
  obtain ⟨n, hn, rfl⟩ := List.mem_iff_getElem.mp (mem_byOpcode_iff.mpr h)
  replace hn : n < 15 := hn
  interval_cases n <;> exact ⟨rfl, rfl, rfl⟩

/-- Every opcode field but 0 is the number of an instruction (R50, R57). -/
theorem exists_byOpcode {op : BitVec 4} (h : op ≠ 0) :
    ∃ n mk, op.toNat = n + 1 ∧ byOpcode[n]? = some mk := by
  have hpos : op.toNat ≠ 0 := fun h0 => h (BitVec.eq_of_toNat_eq h0)
  obtain ⟨n, hn⟩ := Nat.exists_eq_succ_of_ne_zero hpos
  have hlt : n < byOpcode.length := by
    have := op.isLt
    change n < 15
    omega
  exact ⟨n, _, hn, List.getElem?_eq_getElem hlt⟩

/-- A word with an instruction's number in its opcode field spells that instruction (R51, R57). -/
theorem decodeWord_of_byOpcode {w : Word} (hop : (opField w).toNat = n + 1)
    (h : byOpcode[n]? = some mk) :
    decodeWord w = mk (Operand.ofCode (aField w)) (Operand.ofCode (bField w)) := by
  obtain ⟨hn, rfl⟩ := List.getElem?_eq_some_iff.mp h
  replace hn : n < 15 := hn
  unfold decodeWord
  rw [hop]
  interval_cases n <;> rfl

/-- An instruction is encoded with its number in the opcode field (R51, R57). -/
theorem encodeWord_of_byOpcode {op : BitVec 4} (hop : op.toNat = n + 1)
    (h : byOpcode[n]? = some mk) (a b : Operand) : encodeWord (mk a b) = encodeBasic op a b := by
  obtain rfl : op = BitVec.ofNat 4 (n + 1) := by rw [← hop, BitVec.ofNat_toNat, BitVec.setWidth_eq]
  obtain ⟨hn, rfl⟩ := List.getElem?_eq_some_iff.mp h
  replace hn : n < 15 := hn
  interval_cases n <;> rfl

end

/-! ### Extended words -/

/-- A word with opcode field 0 is an extended word (R50, R53). -/
theorem decodeWord_of_opField_eq_zero {w : Word} (h : opField w = 0) :
    decodeWord w = decodeExtended (aField w) (bField w) := by
  simp [decodeWord, h]

theorem decodeExtended_zero (field : Code) : decodeExtended 0 field = .hlt field := rfl

theorem decodeExtended_one (field : Code) :
    decodeExtended 1 field = .jsr (Operand.ofCode field) := rfl

/-- The extended opcodes from 2 on are the illegal ones (R59). -/
theorem isIllegal_decodeExtended_iff (xop field : Code) :
    isIllegal (decodeExtended xop field) = true ↔ 2 ≤ xop.toNat := by
  unfold decodeExtended
  split_ifs with h0 h1
  · simp [h0, isIllegal]
  · simp [h1, isIllegal]
  all_goals exact iff_of_true rfl (by bv_omega)

/-- Each illegal row covers its own range, and the ranges leave no extended opcode out (R59). -/
theorem decodeExtended_wellFormed (xop field : Code) :
    (decodeExtended xop field).wellFormed = true := by
  unfold decodeExtended
  split_ifs <;> simp only [Instr.wellFormed, Bool.and_eq_true, decide_eq_true_eq] <;> bv_omega

/-- Decoding an extended word keeps both its fields (R53, R62). -/
theorem encodeWord_decodeExtended (xop field : Code) :
    encodeWord (decodeExtended xop field) = encodeExtended xop field := by
  unfold decodeExtended
  split_ifs with h0 h1
  · rw [h0, encodeWord]
  · rw [h1, encodeWord, Operand.code_ofCode]
  all_goals rfl

/-! ### Decoding and encoding undo each other -/

theorem decodeWord_wellFormed (w : Word) : (decodeWord w).wellFormed = true := by
  by_cases h : opField w = 0
  · rw [decodeWord_of_opField_eq_zero h, decodeExtended_wellFormed]
  · obtain ⟨n, mk, hop, hmk⟩ := exists_byOpcode h
    obtain ⟨hwf, -, -⟩ := basic_syntax (mem_basic_of_byOpcode hmk)
      (Operand.ofCode (aField w)) (Operand.ofCode (bField w))
    rw [decodeWord_of_byOpcode hop hmk, hwf]

/-- Encoding what a word decodes to gives the word back: each of its three fields is kept (R62). -/
theorem encodeWord_decodeWord (w : Word) : encodeWord (decodeWord w) = w := by
  by_cases h : opField w = 0
  · rw [decodeWord_of_opField_eq_zero h, encodeWord_decodeExtended, encodeExtended, ← h,
      wordOfFields_fields]
  · obtain ⟨n, mk, hop, hmk⟩ := exists_byOpcode h
    rw [decodeWord_of_byOpcode hop hmk, encodeWord_of_byOpcode hop hmk, encodeBasic,
      Operand.code_ofCode, Operand.code_ofCode, wordOfFields_fields]

/-- Decoding the first word of a well-formed instruction gives the instruction back (R62). -/
theorem decodeWord_encodeWord {i : Instr} (h : i.wellFormed = true) :
    decodeWord (encodeWord i) = i := by
  cases i with
  | set a b => exact Laws.RoundTrip.set a b h
  | add a b => exact Laws.RoundTrip.add a b h
  | sub a b => exact Laws.RoundTrip.sub a b h
  | mul a b => exact Laws.RoundTrip.mul a b h
  | div a b => exact Laws.RoundTrip.div a b h
  | mod a b => exact Laws.RoundTrip.mod a b h
  | shl a b => exact Laws.RoundTrip.shl a b h
  | shr a b => exact Laws.RoundTrip.shr a b h
  | and a b => exact Laws.RoundTrip.and a b h
  | or a b => exact Laws.RoundTrip.or a b h
  | xor a b => exact Laws.RoundTrip.xor a b h
  | ife a b => exact Laws.RoundTrip.ife a b h
  | ifn a b => exact Laws.RoundTrip.ifn a b h
  | ifg a b => exact Laws.RoundTrip.ifg a b h
  | ifb a b => exact Laws.RoundTrip.ifb a b h
  | hlt c => exact Laws.RoundTrip.hlt c h
  | jsr a => exact Laws.RoundTrip.jsr a h
  | illegalExt02To03 xop field => exact Laws.RoundTrip.illegalExt02To03 xop field h
  | illegalExt04To07 xop field => exact Laws.RoundTrip.illegalExt04To07 xop field h
  | illegalExt08To0F xop field => exact Laws.RoundTrip.illegalExt08To0F xop field h
  | illegalExt10To1F xop field => exact Laws.RoundTrip.illegalExt10To1F xop field h
  | illegalExt20To3F xop field => exact Laws.RoundTrip.illegalExt20To3F xop field h

/-- A first word takes exactly its extra words from the list and leaves the rest (R52, R62). -/
theorem decode_cons_append {w : Word} {extra : List Word}
    (h : extra.length = (decodeWord w).extraWords) (rest : List Word) :
    decode (w :: (extra ++ rest)) = .ok (⟨decodeWord w, extra⟩, rest) := by
  have henough : ¬ (extra ++ rest).length < extra.length := by simp
  simp only [decode, ← h, if_neg henough, List.take_left, List.drop_left]

/-! ### The length of an instruction -/

/-- R52's table by number is `extra` of the operand. -/
theorem extraNum_code (x : Operand) : extraNum x.code = x.extra := by
  cases x with
  | reg r | regInd r | regIdx r => cases r <;> rfl
  | lit v => revert v; decide
  | pop | peek | push | sp | pc | o | absolute | nextWord => rfl

theorem extraNum_le_one (c : Code) : extraNum c ≤ 1 := by
  unfold extraNum
  split
  · exact le_rfl
  · exact Nat.zero_le 1

/-- The length of a basic instruction (R52). -/
theorem basic_length {mk : Operand → Operand → Instr} (h : mk ∈ basic) (a b : Operand) :
    (mk a b).length = 1 + extraNum a.code + extraNum b.code := by
  obtain ⟨-, -, hextra⟩ := basic_syntax h a b
  rw [Instr.length, hextra, extraNum_code, extraNum_code, Nat.add_assoc]

end Sys2Proof

namespace Sys2Proof.Machine

/-- A step of a running core executes an instruction, and any other step changes nothing: either
answers a next state (R90, R99). -/
theorem step_next (s : State) : ∃ t, step s = .next t := by
  by_cases h : s.status = .running
  · rw [step_of_running h]
    exact exec_next _ _
  · exact ⟨s, step_of_not_running h⟩

end Sys2Proof.Machine

namespace Sys2Proof.Proofs

open Sys2Proof.Machine Sys2Proof.Claims

/-- Settles O1: the first word decodes to its instruction, which then takes exactly the extra words
that follow it. -/
theorem encodedInstructionsDecodeBack : Obligations.EncodedInstructionsDecodeBack := by
  unfold Obligations.EncodedInstructionsDecodeBack
  rintro ⟨i, extra⟩ rest hwf
  obtain ⟨hi, hlen⟩ : i.wellFormed = true ∧ extra.length = i.extraWords := by
    simpa [Assembled.wellFormed] using hwf
  have hfirst : decodeWord (encodeWord i) = i := decodeWord_encodeWord hi
  have hextra : extra.length = (decodeWord (encodeWord i)).extraWords := by rw [hfirst, hlen]
  calc decode (encodeWord i :: (extra ++ rest))
      = .ok (⟨decodeWord (encodeWord i), extra⟩, rest) := decode_cons_append hextra rest
    _ = .ok (⟨i, extra⟩, rest) := by rw [hfirst]

/-- Settles O2, by the opcode field: a basic word is built again from its number and operand codes,
an extended word from its extended opcode and operand field. -/
theorem everyWordEncodesItsInstruction : Obligations.EveryWordEncodesItsInstruction := by
  unfold Obligations.EveryWordEncodesItsInstruction
  exact fun w => ⟨decodeWord_wellFormed w, encodeWord_decodeWord w⟩

/-- Settles O5, by the opcode field: its number picks the basic instruction, and 0 leaves the choice
to the extended opcode. -/
theorem everyWordSpellsByItsFields : Obligations.EveryWordSpellsByItsFields := by
  unfold Obligations.EveryWordSpellsByItsFields
  intro w
  refine ⟨?basic, ?hlt, ?jsr, ?illegal⟩
  case basic =>
    intro h
    obtain ⟨n, mk, hop, hmk⟩ := exists_byOpcode h
    refine ⟨mk, mem_basic_of_byOpcode hmk, ?_, decodeWord_of_byOpcode hop hmk⟩
    rwa [hop, Nat.add_sub_cancel]
  case hlt =>
    rintro ⟨hop, hxop⟩
    rw [decodeWord_of_opField_eq_zero hop, hxop, decodeExtended_zero]
  case jsr =>
    rintro ⟨hop, hxop⟩
    rw [decodeWord_of_opField_eq_zero hop, hxop, decodeExtended_one]
  case illegal =>
    by_cases h : opField w = 0
    · rw [decodeWord_of_opField_eq_zero h, isIllegal_decodeExtended_iff, and_iff_right h]
    · obtain ⟨n, mk, hop, hmk⟩ := exists_byOpcode h
      obtain ⟨-, hlegal, -⟩ := basic_syntax (mem_basic_of_byOpcode hmk)
        (Operand.ofCode (aField w)) (Operand.ofCode (bField w))
      rw [decodeWord_of_byOpcode hop hmk, hlegal]
      exact iff_of_false Bool.false_ne_true fun hext => h hext.1

/-- Settles O6: an instruction has one word and those of its operand codes, at most one each. -/
theorem lengthFollowsFromOperandCodes : Obligations.LengthFollowsFromOperandCodes := by
  unfold Obligations.LengthFollowsFromOperandCodes
  refine ⟨?_, ?_, fun _ => rfl⟩
  · intro mk hmk a b
    have ha := extraNum_le_one a.code
    have hb := extraNum_le_one b.code
    rw [basic_length hmk]
    omega
  · intro a
    rw [extraNum_code]
    rfl

/-- Settles O15, by whether the core runs. -/
theorem everyStepAnswersANextState : Obligations.EveryStepAnswersANextState := by
  unfold Obligations.EveryStepAnswersANextState
  exact step_next

/-- Settles O3: the fields as numbers, and the word as their sum. -/
theorem fieldsOfAWord : Obligations.FieldsOfAWord := by
  unfold Obligations.FieldsOfAWord
  intro w
  have hlt : w.toNat < 65536 := w.isLt
  rw [opField_toNat, aField_toNat, bField_toNat]
  omega

/-- Settles O4, by decoding the nine words. -/
theorem specWordsDecode : Obligations.SpecWordsDecode := by
  unfold Obligations.SpecWordsDecode
  decide

end Sys2Proof.Proofs

/-! ## Family 40_operand_resolver.md: what resolving changes, and operands that read it -/

namespace Sys2Proof.Machine

open Sys2Proof.Claims

/-! ### R84's table by number -/

theorem extra_ofCode (c : Code) : (Operand.ofCode c).extra = extraNum c := by
  rw [← extraNum_code, Operand.code_ofCode]

theorem spMove_ofCode (c : Code) :
    spMove (Operand.ofCode c) = if c = 0x18 then 1 else if c = 0x1A then -1 else 0 := by
  revert c; decide

/-- The same table for SP itself, as R84 writes it. -/
theorem add_spMove_ofCode (sp : Word) (c : Code) :
    sp + spMove (Operand.ofCode c) =
      if c = 0x18 then sp + 1 else if c = 0x1A then sp - 1 else sp := by
  rw [spMove_ofCode]
  split
  · rfl
  · split
    · exact (BitVec.sub_eq_add_neg sp 1).symm
    · exact BitVec.add_zero sp

/-! ### The effect of ADD -/

/-- The carry out of a sum of two words is 0 or 1 (R110). -/
theorem ovfAdd_toNat (va vb : Word) :
    ovfAdd va.toNat vb.toNat = if va.toNat + vb.toNat > 0xFFFF then 1 else 0 := by
  have hva := va.isLt
  have hvb := vb.isLt
  rw [ovfAdd, Nat.shiftRight_eq_div_pow]
  split <;> omega

/-- ADD writes the sum modulo 65536 to its destination, then the carry to O (R96, R110). -/
theorem exec_add_of_reads {a b : Operand} {s s₂ : State} {ra : CellRef} {va vb : Word}
    (h : Reads a b s ra va vb s₂) :
    exec (.add a b) s = .next (addCycles 2
      (setO (BitVec.ofNat 16 (ovfAdd va.toNat vb.toNat)) (writeCell ra (va + vb) s₂))) := by
  have hsum : trunc16 ((va.toNat + vb.toNat : Nat) : Int) = va + vb := by
    rw [trunc16_natCast, BitVec.ofNat_add, BitVec.ofNat_toNat, BitVec.ofNat_toNat,
      BitVec.setWidth_eq, BitVec.setWidth_eq]
  rw [exec_add, execBasic_of_reads h]
  simp only [finishBasic, fAdd, applyResult, applyOvf, applySkip, hsum, trunc16_natCast,
    Bool.false_eq_true, if_false]

/-! ### SET with the stack -/

section

variable {b : Operand} {s t : State}

theorem exec_set_push_sp (h : exec (.set .push b) s = .next t) : t.sp = s.sp - 1 + spMove b := by
  rw [exec_set] at h
  have hmoved : t.sp = s.sp + spMove .push + spMove b :=
    execBasic_sp_of_not_written rfl h (.inl nofun)
  rw [hmoved, BitVec.sub_eq_add_neg]
  rfl

/-- The word stored is the source's value in the state after the push has moved SP (R76, R95). -/
theorem exec_set_push_memRead (hwf : s.mem.wf = true) (h : exec (.set .push b) s = .next t) :
    memRead (s.sp - 1) t =
      readRef (resolve b (setSp (s.sp - 1) s)).1 (resolve b (setSp (s.sp - 1) s)).2 :=
  exec_set_memRead ⟨rfl, rfl, rfl, rfl⟩ hwf h

end

/-- `SET q, POP` takes the word at SP and moves SP past it (R74). -/
theorem exec_set_reg_pop (q : Reg) (s : State) :
    exec (.set (.reg q) .pop) s =
      .next (addCycles 1 (setReg q (memRead s.sp s) (setSp (s.sp + 1) s))) := by
  have hreads : Reads (.reg q) .pop s (.reg (.gp q)) (getReg q s) (memRead s.sp s)
      (setSp (s.sp + 1) s) := ⟨rfl, rfl, rfl, rfl⟩
  exact exec_set_of_reads hreads

end Sys2Proof.Machine

namespace Sys2Proof.Proofs

open Sys2Proof.Machine Sys2Proof.Claims

/-- Settles O8: the state after resolving is given by the operand's extra words and its move of SP,
and both are R84's table by number. -/
theorem resolveSideEffects : Obligations.ResolveSideEffects := by
  unfold Obligations.ResolveSideEffects
  rintro c s _ rfl
  refine ⟨?pc, ?sp, ?cycle, ?pop, ?push, resolve_getReg _ s, resolve_o _ s, resolve_memRead _ s,
    resolve_status _ s⟩
  case pc => rw [resolve_pc, extra_ofCode]
  case sp => rw [resolve_sp, add_spMove_ofCode]
  case cycle => rw [resolve_cycle, extra_ofCode]
  case pop =>
    rintro rfl
    rfl
  case push =>
    rintro rfl
    rfl

/-- Settles O51: after the push the word at SP is the register's value, and the pop takes that word
and moves SP back. -/
theorem popGivesWhatWasPushed : Obligations.PopGivesWhatWasPushed := by
  unfold Obligations.PopGivesWhatWasPushed
  intro r q s t p hwf hpush
  have hsp : t.sp = s.sp - 1 := (exec_set_push_sp hpush).trans (BitVec.add_zero _)
  have htop : memRead t.sp t = getReg r s := by
    rw [hsp]
    exact exec_set_push_memRead hwf hpush
  refine ⟨_, exec_set_reg_pop q (setPc p t), ?value, ?sp⟩
  case value => rw [getReg_addCycles, getReg_setReg_self, sp_setPc, memRead_setPc, htop]
  case sp => rw [sp_addCycles, sp_setReg, sp_setSp, sp_setPc, hsp, BitVec.sub_add_cancel]

/-- Settles O9, by the effects of ADD and SET on what the four operand pairs read. -/
theorem fourFormsOfAddAndSetOnSpPcAndO : Obligations.FourFormsOfAddAndSetOnSpPcAndO := by
  unfold Obligations.FourFormsOfAddAndSetOnSpPcAndO
  intro s
  refine ⟨?popped, ?pushed, ?jumped, ?carried⟩
  case popped => exact ⟨_, exec_add_of_reads ⟨rfl, rfl, rfl, rfl⟩, rfl⟩
  case pushed =>
    intro hwf
    obtain ⟨t, ht⟩ := exec_next (.set .push .sp) s
    exact ⟨t, ht, (exec_set_push_sp ht).trans (BitVec.add_zero _), exec_set_push_memRead hwf ht⟩
  case jumped => exact ⟨_, exec_add_of_reads ⟨rfl, rfl, rfl, rfl⟩, rfl⟩
  case carried =>
    intro r
    have hreads : Reads .o (.reg r) s (.reg .o) s.o (getReg r s) s := ⟨rfl, rfl, rfl, rfl⟩
    refine ⟨_, exec_add_of_reads hreads, ?_⟩
    rw [o_addCycles, o_setO, ovfAdd_toNat]
    split <;> rfl

end Sys2Proof.Proofs

/-! ## Family 41_execute_step.md: what a step runs, what it costs, and a run as repeated steps -/

namespace Sys2Proof.Machine

open Sys2Proof.Claims

/-! ### A literal destination -/

/-- A basic instruction looks at its destination first, so a literal there raises `DecodeError` with
nothing else changed (R93, R147). -/
theorem exec_basic_lit {mk : Operand → Operand → Instr} (h : mk ∈ basic) (v : BitVec 5) (b : Operand)
    (s : State) : exec (mk (.lit v) b) s = .next (raise .decodeError s) := by
  obtain ⟨cost, f, hexec, _⟩ := exec_of_mem_basic h
  rw [hexec, execBasic_lit]

/-! ### The cycles of a step -/

section

variable {mk : Operand → Operand → Instr}

theorem exec_of_mem_writing_cost_le (h : mk ∈ writing) :
    ∃ cost f, (∀ a b s, exec (mk a b) s = execBasic cost f a b s) ∧ cost ≤ 3 ∧
      ∀ va vb, (f va vb).skip = false := by
  simp only [writing, oWriting, oKeeping, List.cons_append, List.nil_append, List.mem_cons,
    List.not_mem_nil, or_false] at h
  rcases h with rfl | rfl | rfl | rfl | rfl | rfl | rfl | rfl | rfl | rfl | rfl <;>
    exact ⟨_, _, fun _ _ _ => rfl, by decide, fun _ _ => rfl⟩

theorem exec_of_mem_conditionals_cost (h : mk ∈ conditionals) :
    ∃ f, ∀ a b s, exec (mk a b) s = execBasic 2 f a b s := by
  simp only [conditionals, List.mem_cons, List.not_mem_nil, or_false] at h
  rcases h with rfl | rfl | rfl | rfl <;> exact ⟨_, fun _ _ _ => rfl⟩

/-- The dearest instructions that write cost 3 and never skip; a conditional costs 2 and its skip one
more (R97). -/
theorem exec_of_mem_basic_cost_le (h : mk ∈ basic) :
    ∃ cost f, (∀ a b s, exec (mk a b) s = execBasic cost f a b s) ∧
      ∀ va vb, cost + (f va vb).skip.toNat ≤ 3 := by
  rcases mem_basic_iff.mp h with hw | hc
  · obtain ⟨cost, f, hexec, hcost, hskip⟩ := exec_of_mem_writing_cost_le hw
    refine ⟨cost, f, hexec, fun va vb => ?_⟩
    rw [hskip]
    exact hcost
  · obtain ⟨f, hexec⟩ := exec_of_mem_conditionals_cost hc
    exact ⟨2, f, hexec, fun va vb => Nat.add_le_add_left (Bool.toNat_le _) 2⟩

end

/-- A basic instruction that completes costs its base cost, one cycle per extra word and one for a
skip (R97). -/
theorem Reads.finishBasic_cycle {a b : Operand} {s s₂ : State} {ra : CellRef} {va vb : Word}
    (h : Reads a b s ra va vb s₂) (cost : Nat) (e : Effect) :
    (finishBasic cost e ra s₂).cycle =
      s.cycle + ofCount (cost + extraNum a.code + extraNum b.code + e.skip.toNat) := by
  have hra : ra ≠ .reg .cycle := fun heq => resolve_ne_cycle s a (heq ▸ h.1)
  have hread : s₂.cycle = s.cycle + ofCount a.extra + ofCount b.extra := by rw [h.state]; rfl
  rw [Machine.finishBasic_cycle _ _ _ hra, hread, extraNum_code, extraNum_code]
  simp only [ofCount, BitVec.ofNat_add]
  ac_rfl

/-- JSR costs 2 and one cycle for an extra word (R97, R141). -/
theorem execJsr_cycle {a : Operand} {s t : State} (h : execJsr a s = .next t) :
    t.cycle = s.cycle + ofCount (2 + extraNum a.code) := by
  cases h
  have hpushed : ∀ v u, (pushWord v u).cycle = u.cycle := fun _ _ => rfl
  rw [cycle_addCycles, cycle_setPc, hpushed, resolve_cycle, extraNum_code, ofCount,
    Nat.add_comm 2, BitVec.ofNat_add, ← add_assoc]

theorem cycle_le_of_eq {s t : State} (h : t.cycle = s.cycle) :
    ∃ n, n ≤ 5 ∧ t.cycle = s.cycle + ofCount n :=
  ⟨0, Nat.zero_le 5, h.trans (BitVec.add_zero _).symm⟩

/-- A basic instruction costs at most 5 cycles: 3 of its own and one for each operand's extra word. -/
theorem basic_cycle_le {mk : Operand → Operand → Instr} {a b : Operand} {s t : State}
    (hmk : mk ∈ basic) (h : exec (mk a b) s = .next t) :
    ∃ n, n ≤ 5 ∧ t.cycle = s.cycle + ofCount n := by
  obtain ⟨cost, f, hexec, hcost⟩ := exec_of_mem_basic_cost_le hmk
  rw [hexec] at h
  rcases execBasic_cases h with ⟨v, -, rfl⟩ | ⟨ra, va, vb, s₂, hr, rfl⟩
  · exact cycle_le_of_eq rfl
  · have ha := extraNum_le_one a.code
    have hb := extraNum_le_one b.code
    have hown := hcost va.toNat vb.toNat
    exact ⟨_, by omega, hr.finishBasic_cycle cost _⟩

/-- Every instruction costs at most 5 cycles; HLT and the illegal words cost none (R97). -/
theorem exec_cycle_le {i : Instr} {s t : State} (h : exec i s = .next t) :
    ∃ n, n ≤ 5 ∧ t.cycle = s.cycle + ofCount n := by
  rcases instr_families i with ⟨mk, hmk, a, b, rfl⟩ | ⟨c, rfl⟩ | ⟨a, rfl⟩ | hi
  · exact basic_cycle_le hmk h
  · cases h
    exact cycle_le_of_eq rfl
  · have ha := extraNum_le_one a.code
    exact ⟨_, by omega, execJsr_cycle h⟩
  · rw [exec_of_isIllegal hi] at h
    cases h
    exact cycle_le_of_eq rfl

/-! ### A run of the host's interface -/

theorem core_run_succ (n : Nat) (s : State) :
    core.run (n + 1) s = andThen (step s) (core.run n) := by
  have hstep : core.step s = step s := rfl
  refine (Host.Core.run.eq_2 core s n).trans ?_
  rw [hstep]
  cases step s <;> rfl

/-- Further calls of `step` leave a stopped core as it is (R99). -/
theorem core_run_of_not_running {s : State} (h : s.status ≠ .running) (n : Nat) :
    core.run n s = .next s := by
  induction n with
  | zero => rfl
  | succ n ih =>
    rw [core_run_succ, step_of_not_running h]
    exact ih

end Sys2Proof.Machine

namespace Sys2Proof.Proofs

open Sys2Proof.Machine Sys2Proof.Claims

/-- Settles O20: all fifteen look at their destination first. -/
theorem literalDestinationRaisesDecodeError : Obligations.LiteralDestinationRaisesDecodeError := by
  unfold Obligations.LiteralDestinationRaisesDecodeError
  exact fun _ hmk v b s => exec_basic_lit hmk v b s

/-- Settles O47: the fetch costs nothing and the instruction at most 5 cycles, and a core that is not
running keeps its CYCLE. -/
theorem stepCostsAtMostFiveCycles : Obligations.StepCostsAtMostFiveCycles := by
  unfold Obligations.StepCostsAtMostFiveCycles
  intro s t h
  by_cases hr : s.status = .running
  · rw [step_of_running hr] at h
    simpa only [cycle_setPc] using exec_cycle_le h
  · rw [step_of_not_running hr] at h
    cases h
    exact cycle_le_of_eq rfl

/-- Settles O56, by induction on the bound: a running core takes the same step in both runs, and a
stopped one stays as it is in both. -/
theorem runIsRepeatedStep : Obligations.RunIsRepeatedStep := by
  unfold Obligations.RunIsRepeatedStep
  intro n
  induction n with
  | zero => exact fun _ => rfl
  | succ n ih =>
    intro s
    by_cases hr : s.status = .running
    · have hrest : run n = core.run n := funext ih
      rw [run_succ_of_running hr, hrest, core_run_succ]
    · exact (run_of_not_running hr _).trans (core_run_of_not_running hr _).symm

/-- Settles O16, by the lemma on a step of a core that is not running. -/
theorem stepWhenNotRunningChangesNothing : Obligations.StepWhenNotRunningChangesNothing := by
  unfold Obligations.StepWhenNotRunningChangesNothing
  exact fun _ => step_of_not_running

/-- Settles O17: the step decodes the word at PC, and decoding undoes encoding. -/
theorem stepRunsTheDecodedInstruction : Obligations.StepRunsTheDecodedInstruction := by
  unfold Obligations.StepRunsTheDecodedInstruction
  intro i s hwf hr hword
  rw [step_of_running hr, hword, decodeWord_encodeWord hwf]
  rfl

end Sys2Proof.Proofs

/-! ## Family 42_set_and_logic.md: SET, AND, OR and XOR -/

namespace Sys2Proof.Machine

open Sys2Proof.Claims

/-! ### The whole next state of an instruction that writes its destination -/

/-- What the model writes to O over unbounded integers is `withO` of the truncated value (R10, R96). -/
theorem applyOvf_eq_withO (ovf : Option Int) (s : State) :
    applyOvf ovf s = withO (ovf.map trunc16) s := by
  cases ovf <;> rfl

theorem applyResult_of_map_trunc16 {result : Option Int} {r : Word}
    (h : result.map trunc16 = some r) (ra : CellRef) (s : State) :
    applyResult result ra s = writeCell ra r s := by
  obtain ⟨v, rfl, rfl⟩ := Option.map_eq_some_iff.mp h
  rfl

/-- An operation that never skips finishes with the destination, then O, then its cost (R96, R97). -/
theorem finishBasic_of_writes {e : Effect} {r : Word} {o : Option Word}
    (hresult : e.result.map trunc16 = some r) (hovf : e.ovf.map trunc16 = o)
    (hskip : e.skip = false) (cost : Nat) (ra : CellRef) (s : State) :
    finishBasic cost e ra s = addCycles cost (withO o (writeCell ra r s)) := by
  rw [finishBasic, applyResult_of_map_trunc16 hresult, applyOvf_eq_withO, hovf, hskip]
  rfl

/-- An instruction over the common frame meets `Writes` when its operation, truncated to words, has
the values stated and never skips: the frame supplies the operands, the order and the cycles. -/
theorem writes_of_effect {mk : Operand → Operand → Instr} {cost : Nat} {f : Nat → Nat → Effect}
    {result : Word → Word → Word} {ovf : Word → Word → Option Word}
    (hexec : ∀ a b s, exec (mk a b) s = execBasic cost f a b s)
    (hresult : ∀ va vb : Word, (f va.toNat vb.toNat).result.map trunc16 = some (result va vb))
    (hovf : ∀ va vb : Word, (f va.toNat vb.toNat).ovf.map trunc16 = ovf va vb)
    (hskip : ∀ va vb, (f va vb).skip = false) : Writes mk cost result ovf := by
  intro a b s hl
  obtain ⟨ra, va, vb, s₂, hr⟩ := reads_exists hl b s
  refine ⟨ra, va, vb, s₂, finishBasic cost (f va.toNat vb.toNat) ra s₂, hr, ?next, ?state, ?cycle⟩
  case next => rw [hexec, execBasic_of_reads hr]
  case state => exact finishBasic_of_writes (hresult va vb) (hovf va vb) (hskip _ _) cost ra s₂
  case cycle => rw [hr.finishBasic_cycle, hskip, Bool.toNat_false, Nat.add_zero]

/-! ### The bitwise operations on numbers are those on words -/

theorem trunc16_land (va vb : Word) :
    trunc16 ((va.toNat &&& vb.toNat : Nat) : Int) = va &&& vb := by
  rw [← BitVec.toNat_and, trunc16_toNat]

theorem trunc16_lor (va vb : Word) :
    trunc16 ((va.toNat ||| vb.toNat : Nat) : Int) = va ||| vb := by
  rw [← BitVec.toNat_or, trunc16_toNat]

theorem trunc16_xor (va vb : Word) :
    trunc16 ((va.toNat ^^^ vb.toNat : Nat) : Int) = va ^^^ vb := by
  rw [← BitVec.toNat_xor, trunc16_toNat]

end Sys2Proof.Machine

namespace Sys2Proof.Proofs

open Sys2Proof.Machine Sys2Proof.Claims

/-- Settles O21: the value read from the source is a word already, so truncating leaves it alone. -/
theorem setCopies : Obligations.SetCopies := by
  unfold Obligations.SetCopies
  exact writes_of_effect exec_set (fun _ vb => congrArg some (trunc16_toNat vb))
    (fun _ _ => rfl) (fun _ _ => rfl)

/-- Settles O22, by bitwise and on numbers being bitwise and on words. -/
theorem andIsBitwise : Obligations.AndIsBitwise := by
  unfold Obligations.AndIsBitwise
  exact writes_of_effect exec_and (fun va vb => congrArg some (trunc16_land va vb))
    (fun _ _ => rfl) (fun _ _ => rfl)

/-- Settles O23, by bitwise or on numbers being bitwise or on words. -/
theorem orIsBitwise : Obligations.OrIsBitwise := by
  unfold Obligations.OrIsBitwise
  exact writes_of_effect exec_or (fun va vb => congrArg some (trunc16_lor va vb))
    (fun _ _ => rfl) (fun _ _ => rfl)

/-- Settles O24, by bitwise exclusive or on numbers being bitwise exclusive or on words. -/
theorem xorIsBitwise : Obligations.XorIsBitwise := by
  unfold Obligations.XorIsBitwise
  exact writes_of_effect exec_xor (fun va vb => congrArg some (trunc16_xor va vb))
    (fun _ _ => rfl) (fun _ _ => rfl)

end Sys2Proof.Proofs

/-! ## Family 43_arithmetic.md: ADD, SUB, MUL, DIV and MOD -/

namespace Sys2Proof.Machine

/-! ### Results and values of O cut to words -/

/-- `trunc16` of a number that is not negative is its remainder modulo 65536 (R10). -/
theorem trunc16_natCast_eq_ofNat_mod (n : Nat) :
    trunc16 (n : Int) = BitVec.ofNat 16 (n % 65536) := by
  apply BitVec.eq_of_toNat_eq
  rw [trunc16_natCast, BitVec.toNat_ofNat, BitVec.toNat_ofNat, Nat.mod_mod]

/-- The mathematical remainder of a negative difference is the difference plus 65536 (R111). -/
theorem trunc16_sub (va vb : Word) :
    trunc16 ((va.toNat : Int) - vb.toNat) =
      BitVec.ofNat 16 ((va.toNat + 65536 - vb.toNat) % 65536) := by
  have hvb := vb.isLt
  apply BitVec.eq_of_toNat_eq
  rw [trunc16, BitVec.toNat_ofInt, BitVec.toNat_ofNat]
  omega

/-- The carry out as a word (R110). -/
theorem trunc16_ovfAdd (va vb : Word) :
    trunc16 (ovfAdd va.toNat vb.toNat) =
      if va.toNat + vb.toNat > 0xFFFF then 0x0001 else 0x0000 := by
  rw [ovfAdd_toNat]
  split <;> rfl

/-- The borrow as a word (R111). -/
theorem trunc16_ovfSub (va vb : Nat) :
    trunc16 (ovfSub va vb) = if va < vb then 0xFFFF else 0x0000 := by
  unfold ovfSub
  split <;> rfl

/-- The high half of the product as a word (R112). -/
theorem trunc16_ovfMul (va vb : Nat) :
    trunc16 (ovfMul va vb) = BitVec.ofNat 16 (va * vb / 65536) := by
  rw [ovfMul, trunc16_natCast, Nat.shiftRight_eq_div_pow]

/-! ### Division -/

/-- A divisor that is zero as a number is the zero word: the case of R113 and R114, cut to words. -/
theorem trunc16_of_zero_divisor (vb : Word) (n : Nat) :
    trunc16 ((if vb.toNat = 0 then 0 else n : Nat) : Int) =
      if vb = 0 then 0 else BitVec.ofNat 16 n := by
  rw [trunc16_natCast, apply_ite (BitVec.ofNat 16)]
  exact if_congr (BitVec.toNat_inj (y := 0)) rfl rfl

/-- The scaled quotient is the quotient above sixteen binary places of the fraction, which alone are
left modulo 65536 (R113). -/
theorem scaled_div_mod_eq_fraction (va : Nat) {vb : Nat} (h : 0 < vb) :
    va * 65536 / vb % 65536 = va % vb * 65536 / vb := by
  have hfraction : va % vb * 65536 / vb < 65536 :=
    Nat.div_lt_of_lt_mul (Nat.mul_lt_mul_of_pos_right (Nat.mod_lt va h) (by decide))
  have hscaled : va * 65536 = vb * (va / vb * 65536) + va % vb * 65536 := by
    rw [← Nat.mul_assoc, ← Nat.add_mul, Nat.div_add_mod]
  rw [hscaled, Nat.mul_add_div h, Nat.mul_add_mod_self_right, Nat.mod_eq_of_lt hfraction]

/-- O after DIV, from the dividend as it was before (R113). -/
theorem ovfDiv_eq_fraction (va vb : Nat) :
    ovfDiv Config.ovfOperand va vb = if vb = 0 then 0 else va % vb * 65536 / vb := by
  have hshift : ovfDiv Config.ovfOperand va vb =
      if vb = 0 then 0 else (va <<< 16) / vb % 65536 := rfl
  rw [hshift, Nat.shiftLeft_eq]
  split
  · rfl
  · next h => exact scaled_div_mod_eq_fraction va (Nat.pos_of_ne_zero h)

end Sys2Proof.Machine

namespace Sys2Proof.Proofs

open Sys2Proof.Machine Sys2Proof.Claims

/-- Settles O25: the carry out of a sum of two words is 1 above 0xFFFF and 0 otherwise. -/
theorem addSumsAndCarries : Obligations.AddSumsAndCarries := by
  unfold Obligations.AddSumsAndCarries
  exact writes_of_effect exec_add
    (fun va vb => congrArg some (trunc16_natCast_eq_ofNat_mod (va.toNat + vb.toNat)))
    (fun va vb => congrArg some (trunc16_ovfAdd va vb)) (fun _ _ => rfl)

/-- Settles O26: the difference, negative on borrow, is cut by the mathematical remainder. -/
theorem subSubtractsAndBorrows : Obligations.SubSubtractsAndBorrows := by
  unfold Obligations.SubSubtractsAndBorrows
  exact writes_of_effect exec_sub (fun va vb => congrArg some (trunc16_sub va vb))
    (fun va vb => congrArg some (trunc16_ovfSub va.toNat vb.toNat)) (fun _ _ => rfl)

/-- Settles O27, by the remainder and the quotient of the product by 65536. -/
theorem mulSplitsTheProduct : Obligations.MulSplitsTheProduct := by
  unfold Obligations.MulSplitsTheProduct
  exact writes_of_effect exec_mul
    (fun va vb => congrArg some (trunc16_natCast_eq_ofNat_mod (va.toNat * vb.toNat)))
    (fun va vb => congrArg some (trunc16_ovfMul va.toNat vb.toNat)) (fun _ _ => rfl)

/-- Settles O28: O's formula on the original dividend gives the fraction's first sixteen binary
places, and a zero divisor gives 0 in both. -/
theorem divGivesQuotientAndFraction : Obligations.DivGivesQuotientAndFraction := by
  unfold Obligations.DivGivesQuotientAndFraction
  refine writes_of_effect exec_div ?quotient ?fraction (fun _ _ => rfl)
  case quotient => exact fun va vb => congrArg some (trunc16_of_zero_divisor vb _)
  case fraction =>
    intro va vb
    have hovf : trunc16 (ovfDiv Config.ovfOperand va.toNat vb.toNat) =
        if vb = 0 then 0 else BitVec.ofNat 16 (va.toNat % vb.toNat * 65536 / vb.toNat) := by
      rw [ovfDiv_eq_fraction, trunc16_of_zero_divisor]
    exact congrArg some hovf

/-- Settles O29: MOD keeps O, and a zero divisor gives 0. -/
theorem modGivesTheRemainder : Obligations.ModGivesTheRemainder := by
  unfold Obligations.ModGivesTheRemainder
  exact writes_of_effect exec_mod (fun va vb => congrArg some (trunc16_of_zero_divisor vb _))
    (fun _ _ => rfl) (fun _ _ => rfl)

end Sys2Proof.Proofs

/-! ## Family 44_shifts.md: SHL and SHR -/

namespace Sys2Proof.Machine

/-! ### The halves of a 32-bit value -/

/-- Reducing modulo 65536 before a cell's own truncation changes nothing (R10). -/
theorem trunc16_natCast_mod (n : Nat) : trunc16 ((n % 65536 : Nat) : Int) = trunc16 (n : Int) := by
  rw [trunc16_natCast, trunc16_natCast_eq_ofNat_mod]

theorem lowHalf_ofNat (n : Nat) : (BitVec.ofNat 32 n).extractLsb' 0 16 = trunc16 (n : Int) := by
  rw [trunc16_natCast]
  apply BitVec.eq_of_toNat_eq
  simp only [BitVec.extractLsb'_toNat, BitVec.toNat_ofNat, Nat.shiftRight_zero]
  omega

theorem highHalf_ofNat (n : Nat) :
    (BitVec.ofNat 32 n).extractLsb' 16 16 = trunc16 ((n >>> 16 : Nat) : Int) := by
  rw [trunc16_natCast]
  apply BitVec.eq_of_toNat_eq
  simp only [BitVec.extractLsb'_toNat, BitVec.toNat_ofNat, Nat.shiftRight_eq_div_pow]
  omega

/-! ### Shifts of a 32-bit value are the shifts of numbers, modulo 2^32 -/

theorem setWidth_shiftLeft (va : Word) (k : Nat) :
    va.setWidth 32 <<< k = BitVec.ofNat 32 (va.toNat <<< k) := by
  apply BitVec.eq_of_toNat_eq
  have hva := va.isLt
  rw [BitVec.toNat_shiftLeft, BitVec.toNat_setWidth, BitVec.toNat_ofNat,
    Nat.mod_eq_of_lt (by omega : va.toNat < 2 ^ 32)]

/-- A word moved to the high half fits in 32 bits, so no bit is lost before the right shift. -/
theorem setWidth_shiftLeft_shiftRight (va : Word) (k : Nat) :
    (va.setWidth 32 <<< 16) >>> k = BitVec.ofNat 32 ((va.toNat <<< 16) >>> k) := by
  have hfits : va.toNat <<< 16 < 2 ^ 32 := by
    rw [Nat.shiftLeft_eq]
    have hva := va.isLt
    omega
  have hshifted : (va.toNat <<< 16) >>> k < 2 ^ 32 :=
    Nat.lt_of_le_of_lt (Nat.shiftRight_le _ _) hfits
  apply BitVec.eq_of_toNat_eq
  rw [setWidth_shiftLeft, BitVec.toNat_ushiftRight, BitVec.toNat_ofNat, BitVec.toNat_ofNat,
    Nat.mod_eq_of_lt hfits, Nat.mod_eq_of_lt hshifted]

/-- The right shift of the word moved to the high half leaves the shifted word there. -/
theorem shiftLeft_shiftRight_shiftRight (va k : Nat) : ((va <<< 16) >>> k) >>> 16 = va >>> k := by
  rw [← Nat.shiftRight_add, Nat.add_comm, Nat.shiftRight_add, Nat.shiftLeft_shiftRight]

/-! ### Results and values of O of the shifts, cut to words -/

section

variable (va vb : Word)

/-- The destination of SHL takes the low half (R120). -/
theorem trunc16_shl :
    trunc16 ((va.toNat <<< vb.toNat : Nat) : Int) =
      (va.setWidth 32 <<< vb.toNat).extractLsb' 0 16 := by
  rw [setWidth_shiftLeft, lowHalf_ofNat]

/-- O takes the high half after SHL, from the original `a` (R96, R120). -/
theorem trunc16_ovfShl :
    trunc16 (ovfShl Config.ovfOperand va.toNat vb.toNat) =
      (va.setWidth 32 <<< vb.toNat).extractLsb' 16 16 := by
  rw [setWidth_shiftLeft, highHalf_ofNat]
  exact trunc16_natCast_mod _

/-- The destination of SHR takes the high half (R121). -/
theorem trunc16_shr :
    trunc16 ((va.toNat >>> vb.toNat : Nat) : Int) =
      ((va.setWidth 32 <<< 16) >>> vb.toNat).extractLsb' 16 16 := by
  rw [setWidth_shiftLeft_shiftRight, highHalf_ofNat, shiftLeft_shiftRight_shiftRight]

/-- O takes the low half after SHR, from the original `a` (R96, R121). -/
theorem trunc16_ovfShr :
    trunc16 (ovfShr Config.ovfOperand va.toNat vb.toNat) =
      ((va.setWidth 32 <<< 16) >>> vb.toNat).extractLsb' 0 16 := by
  rw [setWidth_shiftLeft_shiftRight, lowHalf_ofNat]
  exact trunc16_natCast_mod _

end

end Sys2Proof.Machine

namespace Sys2Proof.Proofs

open Sys2Proof.Machine Sys2Proof.Claims

/-- Settles O30: the number `va * 2^vb` modulo 2^32 is the 32-bit shift, and its halves are the
result and O, for every count. -/
theorem shlShiftsIntoO : Obligations.ShlShiftsIntoO := by
  unfold Obligations.ShlShiftsIntoO
  exact writes_of_effect exec_shl (fun va vb => congrArg some (trunc16_shl va vb))
    (fun va vb => congrArg some (trunc16_ovfShl va vb)) (fun _ _ => rfl)

/-- Settles O31: the word moved to the high half is shifted right with no bit lost at the top, and
the halves are the result and O, for every count. -/
theorem shrShiftsIntoO : Obligations.ShrShiftsIntoO := by
  unfold Obligations.ShrShiftsIntoO
  exact writes_of_effect exec_shr (fun va vb => congrArg some (trunc16_shr va vb))
    (fun va vb => congrArg some (trunc16_ovfShr va vb)) (fun _ _ => rfl)

end Sys2Proof.Proofs

/-! ## Family 45_conditional_skip.md: IFE, IFN, IFG and IFB, and what a skip passes over -/

namespace Sys2Proof.Machine

open Sys2Proof.Claims

/-! ### Skipping -/

/-- The model's skip is R130's procedure by the numbers of R52, whatever the word at PC is. -/
theorem skipNext_eq_passOver (s : State) : skipNext s = passOver s := by
  rw [skipNext_eq]
  simp only [extraOfCode, extra_ofCode]
  rfl

/-- A skip cuts the word at PC into two operand fields, whatever its opcode field is (R131). -/
theorem skipNext_pc_of_wordOfFields {s : State} {hi mid : Code} {lo : BitVec 4}
    (h : memRead s.pc s = wordOfFields hi mid lo) :
    (skipNext s).pc = s.pc + ofCount (1 + extraNum mid + extraNum hi) := by
  rw [skipNext_eq, pc_setCycle, pc_setPc, h, aField_wordOfFields, bField_wordOfFields, extraOfCode,
    extraOfCode, extra_ofCode, extra_ofCode]

theorem skipNext_status (s : State) : (skipNext s).status = s.status := rfl

/-- A basic instruction is encoded with its operand codes in the two operand fields (R51). -/
theorem encodeWord_basic {mk : Operand → Operand → Instr} (h : mk ∈ basic) (a b : Operand) :
    ∃ op, encodeWord (mk a b) = encodeBasic op a b := by
  obtain ⟨n, hn, rfl⟩ := List.mem_iff_getElem.mp (mem_byOpcode_iff.mpr h)
  have hop : (BitVec.ofNat 4 (n + 1)).toNat = n + 1 := by
    change n < 15 at hn
    rw [BitVec.toNat_ofNat]
    omega
  exact ⟨_, encodeWord_of_byOpcode hop (List.getElem?_eq_getElem hn) a b⟩

/-- An illegal word is encoded with its extended opcode and its operand field (R53, R59). -/
theorem encodeWord_illegal {i : Instr} {xop field : Code}
    (h : i = .illegalExt02To03 xop field ∨ i = .illegalExt04To07 xop field ∨
      i = .illegalExt08To0F xop field ∨ i = .illegalExt10To1F xop field ∨
      i = .illegalExt20To3F xop field) : encodeWord i = encodeExtended xop field := by
  rcases h with rfl | rfl | rfl | rfl | rfl <;> rfl

/-! ### The whole next state of a conditional -/

/-- A conditional has nothing to write: it finishes with its cost and the skip (R96, R97). -/
theorem finishBasic_of_tests {e : Effect} (hresult : e.result = none) (hovf : e.ovf = none)
    (cost : Nat) (ra : CellRef) (s : State) :
    finishBasic cost e ra s = applySkip e.skip (addCycles cost s) := by
  rw [finishBasic, hresult, hovf]
  rfl

/-- An instruction of cost 2 over the common frame meets `Tests` when its operation writes nothing and
skips exactly when the test fails: the frame supplies the operands and the cycles. -/
theorem tests_of_effect {mk : Operand → Operand → Instr} {f : Nat → Nat → Effect}
    {holds : Word → Word → Prop} (hexec : ∀ a b s, exec (mk a b) s = execBasic 2 f a b s)
    (hresult : ∀ va vb, (f va vb).result = none) (hovf : ∀ va vb, (f va vb).ovf = none)
    (hskip : ∀ va vb : Word, (f va.toNat vb.toNat).skip = true ↔ ¬ holds va vb) :
    Tests mk holds := by
  intro a b s hl
  obtain ⟨ra, va, vb, s₂, hr⟩ := reads_exists hl b s
  have hcycle := hr.finishBasic_cycle 2 (f va.toNat vb.toNat)
  refine ⟨ra, va, vb, s₂, finishBasic 2 (f va.toNat vb.toNat) ra s₂, hr, ?next, ?passed, ?failed⟩
  case next => rw [hexec, execBasic_of_reads hr]
  case passed =>
    intro hholds
    have hno : (f va.toNat vb.toNat).skip = false :=
      Bool.eq_false_iff.mpr fun hyes => (hskip va vb).mp hyes hholds
    constructor
    · rw [finishBasic_of_tests (hresult _ _) (hovf _ _), hno]
      rfl
    · rw [hcycle, hno, Bool.toNat_false, Nat.add_zero]
  case failed =>
    intro hfails
    have hyes : (f va.toNat vb.toNat).skip = true := (hskip va vb).mpr hfails
    constructor
    · rw [finishBasic_of_tests (hresult _ _) (hovf _ _), hyes]
      exact skipNext_eq_passOver _
    · have hthree (m n : Nat) : 2 + m + n + 1 = 3 + m + n := by omega
      rw [hcycle, hyes, Bool.toNat_true, hthree]

/-! ### The tests on numbers are those on words -/

/-- The bitwise and of two words is 0 exactly when no bit is set in both (R128). -/
theorem land_toNat_eq_zero_iff (va vb : Word) :
    va.toNat &&& vb.toNat = 0 ↔ ¬ ∃ k, va.getLsbD k = true ∧ vb.getLsbD k = true := by
  have hbit (k : Nat) : (va.toNat &&& vb.toNat).testBit k = true ↔
      va.getLsbD k = true ∧ vb.getLsbD k = true := by
    rw [Nat.testBit_land, Bool.and_eq_true]
    rfl
  simp only [← hbit]
  constructor
  · rintro h ⟨k, hk⟩
    rw [h, Nat.zero_testBit] at hk
    cases hk
  · intro h
    by_contra hne
    exact h (Nat.exists_testBit_of_ne_zero hne)

end Sys2Proof.Machine

namespace Sys2Proof.Proofs

open Sys2Proof.Machine Sys2Proof.Claims

/-- Settles O48: the model's table of extra words is R52's. -/
theorem skipNextPassesOverOneInstruction : Obligations.SkipNextPassesOverOneInstruction := by
  unfold Obligations.SkipNextPassesOverOneInstruction
  exact skipNext_eq_passOver

/-- Settles O32: words are equal exactly when their numbers are. -/
theorem ifeTestsEqual : Obligations.IfeTestsEqual := by
  unfold Obligations.IfeTestsEqual
  refine tests_of_effect exec_ife (fun _ _ => rfl) (fun _ _ => rfl) fun va vb => ?_
  rw [fIfe, decide_eq_true_eq, ne_eq, BitVec.toNat_inj]

/-- Settles O33: words are equal exactly when their numbers are. -/
theorem ifnTestsNotEqual : Obligations.IfnTestsNotEqual := by
  unfold Obligations.IfnTestsNotEqual
  refine tests_of_effect exec_ifn (fun _ _ => rfl) (fun _ _ => rfl) fun va vb => ?_
  rw [fIfn, decide_eq_true_eq, BitVec.toNat_inj, not_ne_iff]

/-- Settles O34: `a` at most `b`, equality included, is what skips. -/
theorem ifgTestsGreater : Obligations.IfgTestsGreater := by
  unfold Obligations.IfgTestsGreater
  refine tests_of_effect exec_ifg (fun _ _ => rfl) (fun _ _ => rfl) fun va vb => ?_
  rw [fIfg, decide_eq_true_eq, gt_iff_lt, Nat.not_lt]

/-- Settles O35: the bitwise and is 0 exactly when the words have no common set bit. -/
theorem ifbTestsACommonBit : Obligations.IfbTestsACommonBit := by
  unfold Obligations.IfbTestsACommonBit
  refine tests_of_effect exec_ifb (fun _ _ => rfl) (fun _ _ => rfl) fun va vb => ?_
  rw [fIfb, decide_eq_true_eq, land_toNat_eq_zero_iff]

/-- Settles O41, by the frame of a basic instruction that has no result and no value for O. -/
theorem frameOfConditionals : Obligations.FrameOfConditionals := by
  unfold Obligations.FrameOfConditionals
  intro mk hmk a b s t hl h
  obtain ⟨cost, f, hexec, hresult, hovf⟩ := exec_of_mem_conditionals hmk
  rw [hexec] at h
  exact ⟨fun _ => execBasic_getReg_of_not_written h (.inr hresult),
    execBasic_sp_of_not_written hl h (.inr hresult),
    execBasic_o_of_not_written h hovf (.inr hresult), execBasic_status hl h,
    fun _ => execBasic_memRead_of_not_written h (.inr hresult)⟩

/-- Settles O49, by the two fields each row is encoded with: operand codes, the extended opcodes 0
and 1 of HLT and JSR, which have no extra word, or any other extended opcode. -/
theorem skipCutsEveryWordAsBasic : Obligations.SkipCutsEveryWordAsBasic := by
  unfold Obligations.SkipCutsEveryWordAsBasic
  intro i s _ hword
  refine ⟨?basic, ?jsr, ?hlt, ?illegal, skipNext_status s⟩
  case basic =>
    rintro mk hmk a b rfl
    obtain ⟨op, hop⟩ := encodeWord_basic hmk a b
    rw [skipNext_pc_of_wordOfFields (hword.trans hop), basic_length hmk]
  case jsr =>
    rintro a rfl
    rw [skipNext_pc_of_wordOfFields hword, extraNum_code]
    rfl
  case hlt =>
    rintro c rfl
    exact skipNext_pc_of_wordOfFields hword
  case illegal =>
    intro xop field hi
    exact skipNext_pc_of_wordOfFields (hword.trans (encodeWord_illegal hi))

end Sys2Proof.Proofs

/-! ## Family 46_extended.md: HLT, JSR, and the return from a JSR -/

namespace Sys2Proof

/-- HLT is spelled by the words whose low ten bits are 0, whatever their upper bits (R53, R58). -/
theorem exists_decodeWord_eq_hlt_iff (w : Word) :
    (∃ c, decodeWord w = .hlt c) ↔ w.toNat % 1024 = 0 := by
  constructor
  · rintro ⟨c, hc⟩
    have hw : w = wordOfFields c 0 0 := by rw [← encodeWord_decodeWord w, hc]; rfl
    simp [hw, wordOfFields_toNat]
  · intro h
    have hlow : w.toNat % 16 = 0 := by omega
    have hmid : w.toNat / 16 % 64 = 0 := by omega
    have hop : opField w = 0 := BitVec.eq_of_toNat_eq ((opField_toNat w).trans hlow)
    have hxop : aField w = 0 := BitVec.eq_of_toNat_eq ((aField_toNat w).trans hmid)
    exact ⟨bField w, by rw [decodeWord_of_opField_eq_zero hop, hxop, decodeExtended_zero]⟩

end Sys2Proof

namespace Sys2Proof.Machine

open Sys2Proof.Claims

/-! ### HLT -/

theorem exec_hlt (c : Code) (s : State) : exec (.hlt c) s = .next (halt s) := rfl

/-- Only HLT leaves a core halted that was not (R140, R146). -/
theorem exec_halted {i : Instr} {s t : State} (h : exec i s = .next t)
    (hs : s.status ≠ .halted) (ht : t.status = .halted) : ∃ c, i = .hlt c := by
  rcases instr_families i with ⟨mk, hmk, a, b, rfl⟩ | hhlt | ⟨a, rfl⟩ | hi
  · obtain ⟨cost, f, hexec, -⟩ := exec_of_mem_basic hmk
    rw [hexec] at h
    obtain ⟨-, hstatus | hstatus⟩ := execBasic_keeps h
    · exact absurd (hstatus.symm.trans ht) hs
    · exact nomatch hstatus.symm.trans ht
  · exact hhlt
  · obtain ⟨-, hstatus⟩ := execJsr_keeps h
    exact absurd (hstatus.symm.trans ht) hs
  · rw [exec_of_isIllegal hi] at h
    cases h
    exact nomatch ht

/-- A step that halts a running core has fetched a HLT word and moved PC past it: the word stands
where it was fetched, one before the new PC (R91, R140). -/
theorem step_haltedOnePastHlt {s t : State} (hr : s.status = .running) (h : step s = .next t) :
    t.HaltedOnePastHlt := by
  intro ht
  rw [step_of_running hr] at h
  obtain ⟨c, hc⟩ := exec_halted h (by simp [hr]) ht
  have hword := (exists_decodeWord_eq_hlt_iff _).mp ⟨c, hc⟩
  rw [hc, exec_hlt] at h
  cases h
  rwa [memRead_halt, memRead_setPc, pc_halt, pc_setPc, BitVec.add_sub_cancel]

/-! ### What JSR changes -/

section

variable {a : Operand} {s t : State}

theorem pushWord_sp (v : Word) (s : State) : (pushWord v s).sp = s.sp - 1 := rfl

theorem execJsr_sp (h : execJsr a s = .next t) : t.sp = s.sp + spMove a - 1 := by
  cases h
  rw [sp_addCycles, sp_setPc, pushWord_sp, resolve_sp]

/-- JSR leaves the address after its last word at its new top of stack (R141). -/
theorem execJsr_memRead_top (hwf : s.mem.wf = true) (h : execJsr a s = .next t) :
    memRead (s.sp + spMove a - 1) t = s.pc + ofCount (extraNum a.code) := by
  cases h
  rw [memRead_addCycles, memRead_setPc, ← resolve_sp, pushWord, memRead_memWrite_self,
    resolve_pc, extraNum_code]
  rwa [mem_setSp, resolve_mem]

end

/-- `SET PC, POP` jumps to the word at SP and moves SP past it (R74, R143). -/
theorem exec_set_pc_pop (s : State) :
    exec (.set .pc .pop) s =
      .next (addCycles 1 (setPc (memRead s.sp s) (setSp (s.sp + 1) s))) := by
  have hreads : Reads .pc .pop s (.reg .pc) s.pc (memRead s.sp s) (setSp (s.sp + 1) s) :=
    ⟨rfl, rfl, rfl, rfl⟩
  exact exec_set_of_reads hreads

end Sys2Proof.Machine

namespace Sys2Proof.Proofs

open Sys2Proof.Machine Sys2Proof.Claims

/-- Settles O59: a running core is halted only by a HLT word it has just moved past, and any other
core stays as it is. -/
theorem everyStepKeepsHaltedOnePastAHltWord :
    Obligations.EveryStepKeepsHaltedOnePastAHltWord := by
  unfold Obligations.EveryStepKeepsHaltedOnePastAHltWord
  intro s t hs h
  by_cases hr : s.status = .running
  · exact step_haltedOnePastHlt hr h
  · rw [step_of_not_running hr] at h
    cases h
    exact hs

/-- Settles O36, one part of the state at a time: the operand's side effects, then the push. -/
theorem jsrPushesAndJumps : Obligations.JsrPushesAndJumps := by
  unfold Obligations.JsrPushesAndJumps
  rintro a s _ hwf rfl
  obtain ⟨t, h⟩ : ∃ t, execJsr a s = .next t := ⟨_, rfl⟩
  have hpc : t.pc = readRef (resolve a s).1 (resolve a s).2 := by cases h; rfl
  obtain ⟨-, hstatus⟩ := execJsr_keeps h
  exact ⟨t, h, hpc, execJsr_sp h, execJsr_memRead_top hwf h, fun _ => execJsr_memRead_of_ne h,
    execJsr_getReg h, execJsr_o h, hstatus, execJsr_cycle h⟩

/-- Settles O37: every word with its low ten bits 0 spells HLT. -/
theorem hltStops : Obligations.HltStops := by
  unfold Obligations.HltStops
  refine ⟨exec_hlt, fun s hr hword => ?_⟩
  obtain ⟨c, hc⟩ := (exists_decodeWord_eq_hlt_iff _).mpr hword
  rw [step_of_running hr, hc, exec_hlt]
  rfl

/-- Settles O50: JSR leaves SP at the word that holds the return address, and `SET PC, POP` takes
that word and moves SP back. -/
theorem returnUndoesCall : Obligations.ReturnUndoesCall := by
  unfold Obligations.ReturnUndoesCall
  intro a s t p hwf hcall
  have hsp : t.sp = s.sp + spMove a - 1 := execJsr_sp hcall
  have htop : memRead t.sp t = s.pc + ofCount (extraNum a.code) := by
    rw [hsp]
    exact execJsr_memRead_top hwf hcall
  refine ⟨_, exec_set_pc_pop (setPc p t), ?pc, ?sp⟩
  case pc => rw [pc_addCycles, pc_setPc, sp_setPc, memRead_setPc, htop]
  case sp => rw [sp_addCycles, sp_setPc, sp_setSp, sp_setPc, hsp, BitVec.sub_add_cancel]

end Sys2Proof.Proofs

/-! ## Families 60_exceptions.md and 70_reset_and_hazards.md: fatal errors, the mounted image, and
halting -/

namespace Sys2Proof.Machine

open Sys2Proof.Claims

/-! ### Which words spell an instruction that faults -/

/-- The literals are the operand codes from 0x20 on (R55). -/
theorem le_code_lit (v : BitVec 5) : 0x20 ≤ (Operand.lit v).code.toNat := by
  revert v
  decide

/-- Bit 9 is the highest bit of the destination's operand code, the one that marks a literal (R51,
R55). -/
theorem getLsbD_nine_iff (w : Word) : w.getLsbD 9 = true ↔ 0x20 ≤ (aField w).toNat := by
  rw [aField_toNat, BitVec.getLsbD, Nat.testBit_eq_decide_div_mod_eq, decide_eq_true_eq]
  omega

theorem opField_eq_zero_iff (w : Word) : opField w = 0 ↔ w.toNat % 16 = 0 := by
  rw [BitVec.toNat_eq, opField_toNat, BitVec.ofNat_eq_ofNat, BitVec.toNat_ofNat, Nat.zero_mod]

/-- A basic instruction's word has the instruction's number, which is not 0, in the opcode field and
the destination's code in the field after it (R51, R57). -/
theorem encodeWord_basic_fields {mk : Operand → Operand → Instr} (h : mk ∈ basic) (a b : Operand) :
    opField (encodeWord (mk a b)) ≠ 0 ∧ aField (encodeWord (mk a b)) = a.code := by
  obtain ⟨n, hn, rfl⟩ := List.mem_iff_getElem.mp (mem_byOpcode_iff.mpr h)
  have hlt : n < 15 := hn
  have hop : (BitVec.ofNat 4 (n + 1)).toNat = n + 1 := by
    rw [BitVec.toNat_ofNat]
    omega
  rw [encodeWord_of_byOpcode hop (List.getElem?_eq_getElem hn), encodeBasic, opField_wordOfFields,
    aField_wordOfFields]
  refine ⟨fun hzero => ?_, rfl⟩
  rw [hzero] at hop
  cases hop

/-- A basic instruction with a literal destination is spelled by the basic words with bit 9 set (R51,
R55, R147). -/
theorem exists_decodeWord_eq_basic_lit_iff (w : Word) :
    (∃ mk ∈ basic, ∃ v b, decodeWord w = mk (.lit v) b) ↔
      w.toNat % 16 ≠ 0 ∧ w.getLsbD 9 = true := by
  rw [Ne, ← opField_eq_zero_iff, getLsbD_nine_iff]
  constructor
  · rintro ⟨mk, hmk, v, b, hw⟩
    obtain ⟨hop, hdest⟩ := encodeWord_basic_fields hmk (.lit v) b
    rw [← hw, encodeWord_decodeWord] at hop hdest
    exact ⟨hop, hdest ▸ le_code_lit v⟩
  · rintro ⟨hop, hlit⟩
    obtain ⟨n, mk, hn, hmk⟩ := exists_byOpcode hop
    obtain ⟨v, hv, -⟩ := ofCode_lit hlit
    exact ⟨mk, mem_basic_of_byOpcode hmk, v, _, by rw [decodeWord_of_byOpcode hn hmk, hv]⟩

/-- The illegal instructions are spelled by the extended words with extended opcode 2 or more (R53,
R59). -/
theorem isIllegal_decodeWord_iff (w : Word) :
    isIllegal (decodeWord w) = true ↔ w.toNat % 16 = 0 ∧ 2 ≤ w.toNat / 16 % 64 := by
  obtain ⟨-, -, -, hillegal⟩ := Proofs.everyWordSpellsByItsFields w
  rw [hillegal, opField_eq_zero_iff, aField_toNat]

/-! ### Which instructions fault, and what else they change -/

/-- An instruction that faults a core raises the fault in the state it was given: it is a basic one
with a literal destination, or illegal (R145, R151, R152). -/
theorem exec_faulted {i : Instr} {s t : State} {k : FaultKind} (h : exec i s = .next t)
    (hs : s.status ≠ .faulted k) (ht : t.status = .faulted k) :
    t = raise k s ∧ ((k = .decodeError ∧ ∃ mk ∈ basic, ∃ v b, i = mk (.lit v) b) ∨
      (k = .illegalExtendedOpcode ∧ isIllegal i = true)) := by
  rcases instr_families i with ⟨mk, hmk, a, b, rfl⟩ | ⟨c, rfl⟩ | ⟨a, rfl⟩ | hi
  · obtain ⟨cost, f, hexec, -⟩ := exec_of_mem_basic hmk
    rw [hexec] at h
    rcases execBasic_cases h with ⟨v, rfl, rfl⟩ | ⟨ra, va, vb, s₂, hreads, -⟩
    · cases ht
      exact ⟨rfl, .inl ⟨rfl, mk, hmk, v, b, rfl⟩⟩
    · exact absurd ((execBasic_status hreads.not_literal h).symm.trans ht) hs
  · cases h
    exact nomatch ht
  · obtain ⟨-, hstatus⟩ := execJsr_keeps h
    exact absurd (hstatus.symm.trans ht) hs
  · rw [exec_of_isIllegal hi] at h
    cases h
    cases ht
    exact ⟨rfl, .inr ⟨rfl, hi⟩⟩

section

variable {i : Instr} {s t : State} (h : exec i s = .next t) (hs : s.status = .running)

include h hs

theorem exec_halted_iff : t.status = .halted ↔ ∃ c, i = .hlt c := by
  constructor
  · exact exec_halted h (by simp [hs])
  · rintro ⟨c, rfl⟩
    cases h
    rfl

theorem exec_decodeError_iff :
    t.status = .faulted .decodeError ↔ ∃ mk ∈ basic, ∃ v b, i = mk (.lit v) b := by
  constructor
  · intro ht
    obtain ⟨-, ⟨-, hlit⟩ | ⟨hk, -⟩⟩ := exec_faulted h (by simp [hs]) ht
    · exact hlit
    · cases hk
  · rintro ⟨mk, hmk, v, b, rfl⟩
    rw [exec_basic_lit hmk] at h
    cases h
    rfl

theorem exec_illegalExtendedOpcode_iff :
    t.status = .faulted .illegalExtendedOpcode ↔ isIllegal i = true := by
  constructor
  · intro ht
    obtain ⟨-, ⟨hk, -⟩ | ⟨-, hi⟩⟩ := exec_faulted h (by simp [hs]) ht
    · cases hk
    · exact hi
  · intro hi
    rw [exec_of_isIllegal hi] at h
    cases h
    rfl

theorem exec_status_ne_boundsError : t.status ≠ .faulted .boundsError := by
  intro ht
  obtain ⟨-, ⟨hk, -⟩ | ⟨hk, -⟩⟩ := exec_faulted h (by simp [hs]) ht <;> cases hk

end

end Sys2Proof.Machine

namespace Sys2Proof.Proofs

open Sys2Proof.Machine Sys2Proof.Claims

/-- Settles O18: which instructions stop a running core, and which words spell them. -/
theorem statusAfterAStepByTheFetchedWord : Obligations.StatusAfterAStepByTheFetchedWord := by
  unfold Obligations.StatusAfterAStepByTheFetchedWord
  rintro s t w hr h rfl
  rw [step_of_running hr] at h
  exact ⟨(exec_halted_iff h hr).trans (exists_decodeWord_eq_hlt_iff _),
    (exec_decodeError_iff h hr).trans (exists_decodeWord_eq_basic_lit_iff _),
    (exec_illegalExtendedOpcode_iff h hr).trans (isIllegal_decodeWord_iff _),
    exec_status_ne_boundsError h hr⟩

/-- Settles O19: the fault is raised in the state after the fetch. -/
theorem faultsArePrecise : Obligations.FaultsArePrecise := by
  unfold Obligations.FaultsArePrecise
  intro s t k hr h ht
  rw [step_of_running hr] at h
  obtain ⟨hraise, -⟩ := exec_faulted h (by simp [hr]) ht
  exact hraise

/-- Settles O38: every word of the illegal rows spells an illegal instruction, and each of these
raises the fault at once. -/
theorem illegalExtendedOpcodesFault : Obligations.IllegalExtendedOpcodesFault := by
  unfold Obligations.IllegalExtendedOpcodesFault
  refine ⟨fun i s hi => exec_of_isIllegal hi s, fun s hr hop hxop => ?_⟩
  rw [step_of_running hr, exec_of_isIllegal ((isIllegal_decodeWord_iff _).mpr ⟨hop, hxop⟩)]
  rfl

/-- Settles O54: the image is longer than the longest that `mount` accepts. -/
theorem mountRefusesAnOversizeImage : Obligations.MountRefusesAnOversizeImage := by
  unfold Obligations.MountRefusesAnOversizeImage
  exact fun _ _ hlong => if_pos hlong

/-- Settles O55: the mounted core runs from PC 0, where memory reads the image's first word. -/
theorem executionBeginsAtTheFirstWord : Obligations.ExecutionBeginsAtTheFirstWord := by
  unfold Obligations.ExecutionBeginsAtTheFirstWord
  intro w ws s hfits
  refine ⟨mounted (w :: ws), mount_eq_next_iff.mpr ⟨hfits, rfl⟩, ?_⟩
  have hfirst : memRead (mounted (w :: ws)).pc (mounted (w :: ws)) = w := mounted_memRead hfits 0
  rw [step_of_running rfl, hfirst]
  rfl

/-- Settles O57: a running core meets the invariant of O59, which a run of any length keeps because
every step does. -/
theorem aHaltedRunStoppedAtAHltWord : Obligations.AHaltedRunStoppedAtAHltWord := by
  unfold Obligations.AHaltedRunStoppedAtAHltWord
  intro n s t hr hrun
  have hs : s.HaltedOnePastHlt := fun hhalted => nomatch hr.symm.trans hhalted
  exact run_keeps (P := State.HaltedOnePastHlt) everyStepKeepsHaltedOnePastAHltWord hs hrun

end Sys2Proof.Proofs
